-- ==== Sys2Proof/Word.lean ====
section
/-!
DEFINITION. The engine's word sizes (spec/00_scope.md R6, R7, R8): unsigned 8-, 32- and 64-bit
values and the 4-bit register index.
-/

namespace Sys2Proof

/-- A stream byte (R8, `u8`). -/
abbrev Byte := BitVec 8

/-- The 32-bit value of the register window, of the hash halves and of a Word (R6, R7, R12). -/
abbrev Word := BitVec 32

/-- The 64-bit seed (R6). -/
abbrev Seed := BitVec 64

/-- A register index: 4 bits, 16 slots (R7, R42). -/
abbrev RegIndex := BitVec 4

end Sys2Proof
end

