-- ==== Sys2Proof/Config.lean ====
section
/-!
DEFINITION. What an implementation fixes: the error codes (spec/00_scope.md R7,
spec/60_exceptions.md R141) and the one parameter the spec leaves open, `ENGINE_BASE`
(spec/20_memory.md R42). The spec leaves no value of the engine's own behaviour free
(spec/93_implementation_defined.md section 1), so there is no other opaque constant.
-/

namespace Sys2Proof

/-- The four errors a command can raise (R141). Their 4-bit codes are `Machine.errorNumber`. -/
inductive ErrorCode where
  /-- E_ILLEGAL: reserved OP, a nonzero reserved bit, or a nonzero CNT on a command other than PUSH. -/
  | eIllegal
  /-- E_COUNT: a PUSH word with CNT = 5, 6 or 7. -/
  | eCount
  /-- E_NOINIT: MIX, PUSH or FINISH with no INIT since reset. -/
  | eNoInit
  /-- E_RESIDUE: MIX while the residue buffer is not empty. -/
  | eResidue
  deriving DecidableEq, Repr

/-- `ENGINE_BASE` (R42, D4): where the host's bus places register index 0. OPEN in the spec: no body,
so nothing can be proved of its value; no rule of the engine reads it (assumption log 5). -/
opaque Config.engineBase : Nat

end Sys2Proof
end

