-- ==== Sys2Proof/Syntax.lean ====
section
/-!
DEFINITION. The engine's commands: one constructor per row of spec/opcode_table.json
(spec/30_encoding.md R62).
-/

namespace Sys2Proof

/-- A command (spec/00_scope.md R11). Only PUSH has an operand in its word, the 3-bit CNT
(spec/30_encoding.md R63); every other operand stands in a register its opcode fixes (R64). -/
inductive Instr where
  /-- NOP (spec/43_control.md R110). -/
  | nop
  /-- INIT (spec/43_control.md R111). -/
  | init
  /-- MIX (spec/40_mixing_core.md R82). -/
  | mix
  /-- PUSH k (spec/42_incremental_push.md R101), `k` the CNT field as it stands in the word. -/
  | push (k : BitVec 3)
  /-- FINISH (spec/41_finalization.md R93). -/
  | finish
  /-- CLRERR (spec/43_control.md R112). -/
  | clrerr
  deriving DecidableEq, Repr

end Sys2Proof
end

