-- ==== Sys2Proof/WellFormed.lean ====
section
/-!
DEFINITION. Which commands are legal as syntax: a PUSH takes at most 4 bytes
(spec/30_encoding.md R69; spec/42_incremental_push.md R101).
-/

namespace Sys2Proof

/-- CNT of a legal PUSH is 0 to 4 (R69); the other commands have no operand to check. -/
def Instr.wellFormed : Instr → Bool
  | .nop => true
  | .init => true
  | .mix => true
  | .push k => decide (k.toNat ≤ 4)
  | .finish => true
  | .clrerr => true

/-- `Instr.wellFormed` as a proposition. -/
abbrev Instr.WellFormed (i : Instr) : Prop := i.wellFormed = true

end Sys2Proof
end

