-- ==== Sys2Proof/Decode.lean ====
section
/-!
DEFINITION. The command word: its fields (spec/30_encoding.md R61), the total decoder (R65) and the
encoder (R62).
-/

namespace Sys2Proof

/-- What decoding a word answers: a command, or the error the word raises (R65, R70). -/
inductive Decoded where
  | command (i : Instr)
  | error (c : ErrorCode)
  deriving DecidableEq, Repr

/-- OP, bits 3:0 (R61). -/
def opField (w : Word) : BitVec 4 := w.extractLsb' 0 4

/-- RSV0, bits 7:4 (R61). -/
def rsv0Field (w : Word) : BitVec 4 := w.extractLsb' 4 4

/-- CNT, bits 10:8 (R61, R63). -/
def cntField (w : Word) : BitVec 3 := w.extractLsb' 8 3

/-- RSV1, bits 31:11 (R61). -/
def rsv1Field (w : Word) : BitVec 21 := w.extractLsb' 11 21

/-- The `case op of` of R65. Opcodes 0x6 to 0xF are reserved (R66). -/
def decodeOp (op : BitVec 4) (k : BitVec 3) : Decoded :=
  if op = 0x0#4 then .command .nop
  else if op = 0x1#4 then .command .init
  else if op = 0x2#4 then .command .mix
  else if op = 0x3#4 then .command (.push k)
  else if op = 0x4#4 then .command .finish
  else if op = 0x5#4 then .command .clrerr
  else .error .eIllegal

/-- The decoder, total on every 32-bit word, its checks in R65's order. -/
def decode (w : Word) : Decoded :=
  if rsv0Field w ≠ 0#4 ∨ rsv1Field w ≠ 0#21 then .error .eIllegal
  else if 6 ≤ (opField w).toNat then .error .eIllegal
  else if opField w ≠ 0x3#4 ∧ cntField w ≠ 0#3 then .error .eIllegal
  else if opField w = 0x3#4 ∧ 4 < (cntField w).toNat then .error .eCount
  else decodeOp (opField w) (cntField w)

/-- The command a word decodes to, where it decodes to one. -/
def decodedCommand : Decoded → Option Instr
  | .command i => some i
  | .error _ => none

/-- The OP value of a command (R62). -/
def opcode : Instr → BitVec 4
  | .nop => 0x0#4
  | .init => 0x1#4
  | .mix => 0x2#4
  | .push _ => 0x3#4
  | .finish => 0x4#4
  | .clrerr => 0x5#4

/-- The CNT value of a command: 0 for every command but PUSH (R61). -/
def countOf : Instr → BitVec 3
  | .nop => 0#3
  | .init => 0#3
  | .mix => 0#3
  | .push k => k
  | .finish => 0#3
  | .clrerr => 0#3

/-- The command's word, `OP | CNT << 8`, reserved fields zero (R61, R62). -/
def encode (i : Instr) : Word :=
  (opcode i).setWidth 32 ||| ((countOf i).setWidth 32 <<< 8)

/-- The command word an opcode-table row of `nbits` bits stands for: bits at and above `nbits` are 0. -/
def tableWord (nbits w : Nat) : Word := BitVec.ofNat 32 (w % 2 ^ nbits)

/-- The command the decoder reads from a word of spec/opcode_table.json. A command is one 32-bit word
(R60), so bit 0 of the table is bit 0 of the command word. -/
def decodeTableWord (nbits w : Nat) : Option Instr := decodedCommand (decode (tableWord nbits w))

end Sys2Proof
end

