-- ==== Sys2Proof/Machine/State.lean ====
section
/-!
DEFINITION. The engine's state (spec/10_state.md R20), the bus events the model's step serves, the
state after reset (spec/70_reset_and_hazards.md R161), and the reasons a step could stop.
-/

namespace Sys2Proof.Machine

/-- The source's HashState (spec/00_scope.md R12): the pair `mix` takes and returns. -/
structure HashState where
  lo : Word
  hi : Word
  deriving DecidableEq, Repr

/-- The defined registers of the window (spec/10_state.md section 2). -/
inductive Reg where
  | cmd
  | data
  | seedLo
  | seedHi
  | stateLo
  | stateHi
  | residue
  | status
  | result
  | resultHi
  deriving DecidableEq, Repr

/-- One event at the engine's port: the host's two accesses (spec/20_memory.md R41) and the platform's
reset (spec/70_reset_and_hazards.md R160). An access is always a 4-bit index and a full 32-bit value
(R43). -/
inductive BusEvent where
  /-- BusWrite(idx, v). -/
  | write (idx : RegIndex) (v : Word)
  /-- BusRead(idx). -/
  | read (idx : RegIndex)
  /-- The platform asserts reset. -/
  | reset
  deriving DecidableEq, Repr

/-- Why the machine would stop. Nothing raises a fault: an error is recorded in `err` and `errcode` and
the engine goes on (spec/60_exceptions.md R143, R146), and every command completes
(spec/70_reset_and_hazards.md R169). So there is no constructor (assumption log 9). -/
inductive Fault where
  deriving DecidableEq, Repr

/-- Why the model would decline to answer. -/
inductive Refusal where
  /-- An instruction with no meaning in the model, raised by `exec`'s arm for it; safe. No arm raises
  it: every command has its meaning. -/
  | notModelled (mnemonic : String)
  deriving DecidableEq, Repr

/-- The engine's ten fields (spec/10_state.md R20), then the model's own two fields for the bus. -/
structure State where
  /-- HashState low half (R21). -/
  lo : Word
  /-- HashState high half (R22). -/
  hi : Word
  /-- Residue buffer, oldest byte first, exactly `fill` bytes (R23, R24, R26). -/
  res : List Byte
  /-- An INIT has executed since reset (R25). -/
  inited : Bool
  /-- An error is recorded (R27). -/
  err : Bool
  /-- Code of the first recorded error; 0 when none (R27, R34). -/
  errcode : BitVec 4
  /-- Finish value of the last successful FINISH (R28). -/
  result : Word
  /-- DATA operand register (R29). -/
  data : Word
  /-- SEED_LO operand register (R30). -/
  seedLo : Word
  /-- SEED_HI operand register (R30). -/
  seedHi : Word
  /-- The MODEL's own: the accesses the bus has still to deliver, the next one first
  (spec/20_memory.md R51; assumption log 1). -/
  pending : List BusEvent
  /-- The MODEL's own: the values answered to BusReads, oldest first (R41; assumption log 2). -/
  reads : List Word
  deriving DecidableEq, Repr

/-- The engine right after reset, every field at the value of spec/70_reset_and_hazards.md R161, with
no access delivered yet. -/
def State.reset : State where
  lo := 0x00000000#32
  hi := 0x00000000#32
  res := []
  inited := false
  err := false
  errcode := 0#4
  result := 0x00000000#32
  data := 0x00000000#32
  seedLo := 0x00000000#32
  seedHi := 0x00000000#32
  pending := []
  reads := []

end Sys2Proof.Machine
end

