-- ==== Sys2Proof/Machine/Operands.lean ====
section
/-!
DEFINITION. Operand forms: how bytes form a Word, how a PUSH takes bytes from DATA, how INIT takes the
seed, and how a register index names a register.
-/

namespace Sys2Proof.Machine

/-- `le32(b0, b1, b2, b3)` (spec/00_scope.md R10, spec/20_memory.md R47). -/
def le32 (b0 b1 b2 b3 : Byte) : Word :=
  b0.setWidth 32 ||| (b1.setWidth 32 <<< 8) ||| (b2.setWidth 32 <<< 16) ||| (b3.setWidth 32 <<< 24)

/-- Byte lane `i` of a 32-bit value, `v[8i+7:8i]` (spec/20_memory.md R48). -/
def byteLane (v : Word) (i : Nat) : Byte := v.extractLsb' (8 * i) 8

/-- The bytes PUSH k takes from DATA, in stream order (spec/20_memory.md R48,
spec/42_incremental_push.md R101). -/
def dataBytes (v : Word) (k : Nat) : List Byte := (List.range k).map (byteLane v)

/-- The Word four bytes of a list form (spec/20_memory.md R47): `le32(L[0], L[1], L[2], L[3])`. -/
def wordOfBytes (l : List Byte) : Word := le32 (l.getD 0 0) (l.getD 1 0) (l.getD 2 0) (l.getD 3 0)

/-- `zext_64(SEED_HI) << 32 | zext_64(SEED_LO)` (spec/10_state.md R30, spec/20_memory.md R50). -/
def seedOf (lo hi : Word) : Seed := (hi.setWidth 64 <<< 32) ||| lo.setWidth 64

/-- `lo = seed & 0xFFFFFFFF`, `hi = seed >> 32` (spec/43_control.md R111). -/
def seedState (seed : Seed) : HashState :=
  ⟨(seed &&& 0xFFFFFFFF#64).setWidth 32, (seed >>> 32).setWidth 32⟩

/-- The register at an index; `none` for the reserved indices 10 to 15 (spec/10_state.md section 2,
R36). -/
def regAt (idx : RegIndex) : Option Reg :=
  match idx.toNat with
  | 0 => some .cmd
  | 1 => some .data
  | 2 => some .seedLo
  | 3 => some .seedHi
  | 4 => some .stateLo
  | 5 => some .stateHi
  | 6 => some .residue
  | 7 => some .status
  | 8 => some .result
  | 9 => some .resultHi
  | _ => none

/-- The index of a register (spec/10_state.md section 2). -/
def regIndex : Reg → RegIndex
  | .cmd => 0#4
  | .data => 1#4
  | .seedLo => 2#4
  | .seedHi => 3#4
  | .stateLo => 4#4
  | .stateHi => 5#4
  | .residue => 6#4
  | .status => 7#4
  | .result => 8#4
  | .resultHi => 9#4

/-- Where a byte-addressed host bus places a register: `ENGINE_BASE + 4*idx` (spec/20_memory.md R42).
No rule of the engine reads it. -/
def registerAddress (idx : RegIndex) : Nat := Config.engineBase + 4 * idx.toNat

end Sys2Proof.Machine
end

