-- ==== Sys2Proof/Machine/Flags.lean ====
section
/-!
DEFINITION. The status of the engine: the error codes' numbers (spec/60_exceptions.md R141) and the
packed read-outs STATUS (spec/10_state.md R34) and RESIDUE (R33). The engine has no condition flags
(R37).
-/

namespace Sys2Proof.Machine

/-- ERRCODE values (R141). 0 is "no error recorded"; 5 to 15 are never produced. -/
def errorNumber : ErrorCode → BitVec 4
  | .eIllegal => 1#4
  | .eCount => 2#4
  | .eNoInit => 3#4
  | .eResidue => 4#4

/-- FILL, `len(res)` (R24, R34). -/
def fill (s : State) : BitVec 2 := BitVec.ofNat 2 s.res.length

/-- STATUS: FILL 1:0, INITED 2, ERR 3, ERRCODE 7:4, zero above (R34). -/
def statusWord (s : State) : Word :=
  (fill s).setWidth 32
    ||| ((BitVec.ofBool s.inited).setWidth 32 <<< 2)
    ||| ((BitVec.ofBool s.err).setWidth 32 <<< 3)
    ||| (s.errcode.setWidth 32 <<< 4)

/-- RESIDUE: byte `i` is `res[i]` for `i < len(res)`, else 0 (R33). -/
def residueWord (s : State) : Word := wordOfBytes s.res

end Sys2Proof.Machine
end

