-- ==== Sys2Proof/Machine/Ops.lean ====
section
/-!
DEFINITION. The named operations: the updates of State, recording and clearing an error
(spec/60_exceptions.md R143, R147), the mixing function (spec/40_mixing_core.md R80), the padding word
and the finalize function (spec/41_finalization.md R90, R92), and appending bytes to the stream
(spec/42_incremental_push.md R101).
-/

namespace Sys2Proof.Machine

/-! Updates, one per group of fields written together (spec/10_state.md R39). -/

/-- `(lo, hi) <- h`. -/
def State.setHash (s : State) (h : HashState) : State := { s with lo := h.lo, hi := h.hi }

/-- `res <- r`. -/
def State.setRes (s : State) (r : List Byte) : State := { s with res := r }

/-- `inited <- b`. -/
def State.setInited (s : State) (b : Bool) : State := { s with inited := b }

/-- `err <- e`, `errcode <- c`. -/
def State.setError (s : State) (e : Bool) (c : BitVec 4) : State := { s with err := e, errcode := c }

/-- `result <- v`. -/
def State.setResult (s : State) (v : Word) : State := { s with result := v }

/-- `data <- v`. -/
def State.setData (s : State) (v : Word) : State := { s with data := v }

/-- `seed_lo <- v`. -/
def State.setSeedLo (s : State) (v : Word) : State := { s with seedLo := v }

/-- `seed_hi <- v`. -/
def State.setSeedHi (s : State) (v : Word) : State := { s with seedHi := v }

/-- The accesses still to be delivered become `p`. -/
def State.setPending (s : State) (p : List BusEvent) : State := { s with pending := p }

/-- The engine answers `v` to a BusRead. -/
def State.answerRead (s : State) (v : Word) : State := { s with reads := s.reads ++ [v] }

/-- `lo` and `hi` as the pair `mix` takes. -/
def State.hash (s : State) : HashState := ⟨s.lo, s.hi⟩

/-! Errors: the engine's only kind of exception (spec/60_exceptions.md R146). -/

/-- `raise Error(c)` (R143): the first error is recorded, a later one leaves `errcode` as it is;
nothing else changes (R142). -/
def raiseError (c : ErrorCode) (s : State) : State :=
  if s.err then s else s.setError true (errorNumber c)

/-- The only return from the error state other than reset (R147). -/
def clearError (s : State) : State := s.setError false 0#4

/-! The mixing function. -/

/-- `rotl(a, r)` for 0 < r < 32 (spec/00_scope.md R9; assumption log 4). -/
def rotl (a : Word) (r : Nat) : Word := (a <<< r) ||| (a >>> (32 - r))

/-- The six assignments of R80, in order, each on the values the ones before it produced. -/
def mix (h : HashState) (v : Word) : HashState :=
  let lo := h.lo + v
  let hi := h.hi ^^^ lo
  let lo := rotl lo 20 + hi
  let hi := rotl hi 9 ^^^ lo
  let lo := rotl lo 27 + hi
  let hi := rotl hi 19
  ⟨lo, hi⟩

/-! Padding and finalization. -/

/-- The padding word (spec/41_finalization.md R90): fold over `r` in reverse order,
`acc = (acc << 8) | byte`, from 0x80. -/
def finalWord (r : List Byte) : Word :=
  r.foldr (fun b acc => (acc <<< 8) ||| b.setWidth 32) 0x00000080#32

/-- `finalize(lo, hi, r)` (spec/41_finalization.md R92): two mixes, then `lo XOR hi`. -/
def finalize (h : HashState) (r : List Byte) : Word :=
  let h := mix h (finalWord r)
  let h := mix h 0x00000000#32
  h.lo ^^^ h.hi

/-! Appending bytes to the stream (spec/42_incremental_push.md R101). -/

/-- Phase 2 of R101: while at least 4 bytes remain, mix the Word of the first four. Answers the hash
state and the bytes left. -/
def absorbWords (h : HashState) : List Byte → HashState × List Byte
  | b0 :: b1 :: b2 :: b3 :: rest => absorbWords (mix h (le32 b0 b1 b2 b3)) rest
  | [] => (h, [])
  | [b0] => (h, [b0])
  | [b0, b1] => (h, [b0, b1])
  | [b0, b1, b2] => (h, [b0, b1, b2])

/-- Phases 2 and 3 of R101: whole Words are mixed, the remainder becomes the residue. -/
def absorbRest (s : State) (b : List Byte) : State :=
  (s.setHash (absorbWords s.hash b).1).setRes (absorbWords s.hash b).2

/-- R101 for the bytes `b`: top off a non-empty residue buffer (phase 1), then phases 2 and 3. A
top-off that does not complete a Word keeps every byte in the buffer (spec/90_conflicts.md C2). -/
def appendBytes (s : State) (b : List Byte) : State :=
  if 0 < s.res.length then
    let t := min (4 - s.res.length) b.length
    let topped := s.res ++ b.take t
    if topped.length = 4 then
      absorbRest ((s.setHash (mix s.hash (wordOfBytes topped))).setRes []) (b.drop t)
    else
      s.setRes topped
  else
    absorbRest s b

end Sys2Proof.Machine
end

