-- ==== Sys2Proof/Machine/Control.lean ====
section
/-!
DEFINITION. The control commands NOP, INIT and CLRERR (spec/43_control.md). All three are legal at any
time.
-/

namespace Sys2Proof.Machine

/-- NOP (R110): no effect. -/
def execNop (s : State) : Host.Outcome State Fault Refusal := .next s

/-- INIT (R111): a session starts from SEED_HI:SEED_LO. The error state, `result` and the operand
registers stay. -/
def execInit (s : State) : Host.Outcome State Fault Refusal :=
  .next (((s.setHash (seedState (seedOf s.seedLo s.seedHi))).setRes []).setInited true)

/-- CLRERR (R112): `err` and `errcode` become 0. -/
def execClrerr (s : State) : Host.Outcome State Fault Refusal := .next (clearError s)

end Sys2Proof.Machine
end

