-- ==== Sys2Proof/Machine/Finalization.lean ====
section
/-!
DEFINITION. FINISH (spec/41_finalization.md R93).
-/

namespace Sys2Proof.Machine

/-- FINISH (R93): `result` becomes the finish value, computed on copies; `lo`, `hi` and `res` are not
written. -/
def execFinish (s : State) : Host.Outcome State Fault Refusal :=
  if s.inited = false then .next (raiseError .eNoInit s)
  else .next (s.setResult (finalize s.hash s.res))

end Sys2Proof.Machine
end

