-- ==== Sys2Proof/Machine/Mixing.lean ====
section
/-!
DEFINITION. MIX (spec/40_mixing_core.md R82).
-/

namespace Sys2Proof.Machine

/-- MIX (R82): absorb the Word in DATA. E_NOINIT comes before E_RESIDUE (spec/60_exceptions.md R144). -/
def execMix (s : State) : Host.Outcome State Fault Refusal :=
  if s.inited = false then .next (raiseError .eNoInit s)
  else if s.res.length ≠ 0 then .next (raiseError .eResidue s)
  else .next (s.setHash (mix s.hash s.data))

end Sys2Proof.Machine
end

