-- ==== Sys2Proof/Machine/Push.lean ====
section
/-!
DEFINITION. PUSH (spec/42_incremental_push.md R101).
-/

namespace Sys2Proof.Machine

/-- PUSH k (R101): append the first `k` bytes of DATA to the stream. A count above 4 is E_COUNT
(spec/30_encoding.md R69), before any check of the state (spec/60_exceptions.md R144); the decoder
raises it already, so no word reaches that branch (assumption log 11). -/
def execPush (k : BitVec 3) (s : State) : Host.Outcome State Fault Refusal :=
  if 4 < k.toNat then .next (raiseError .eCount s)
  else if s.inited = false then .next (raiseError .eNoInit s)
  else .next (appendBytes s (dataBytes s.data k.toNat))

end Sys2Proof.Machine
end

