-- ==== Sys2Proof/Machine/Dispatch.lean ====
section
/-!
DEFINITION. One arm per command of spec/opcode_table.json, each one call of its meaning.
-/

namespace Sys2Proof.Machine

def exec (i : Instr) (s : State) : Host.Outcome State Fault Refusal :=
  match i with
  | .nop => Sys2Proof.Machine.execNop s
  | .init => Sys2Proof.Machine.execInit s
  | .mix => Sys2Proof.Machine.execMix s
  | .push k => Sys2Proof.Machine.execPush k s
  | .finish => Sys2Proof.Machine.execFinish s
  | .clrerr => Sys2Proof.Machine.execClrerr s

end Sys2Proof.Machine
end

