-- ==== Sys2Proof/Machine/Bus.lean ====
section
/-!
DEFINITION. The register window (spec/10_state.md section 2, spec/20_memory.md): what a BusRead
answers, what a BusWrite does, how a command word runs, and how the engine serves the next access.
-/

namespace Sys2Proof.Machine

/-- The value a BusRead of `idx` answers (R31 to R36). CMD, RESULT_HI and the reserved indices read 0. -/
def readRegister (idx : RegIndex) (s : State) : Word :=
  match regAt idx with
  | some .cmd => 0x00000000#32
  | some .data => s.data
  | some .seedLo => s.seedLo
  | some .seedHi => s.seedHi
  | some .stateLo => s.lo
  | some .stateHi => s.hi
  | some .residue => residueWord s
  | some .status => statusWord s
  | some .result => s.result
  | some .resultHi => 0x00000000#32
  | none => 0x00000000#32

/-- A write of `w` to CMD: decode it (spec/30_encoding.md R65), then run the command, or raise the error
the word decodes to. The word is not kept (spec/10_state.md R31). -/
def runCommandWord (w : Word) (s : State) : Host.Outcome State Fault Refusal :=
  match decode w with
  | .command i => exec i s
  | .error c => .next (raiseError c s)

/-- BusWrite(idx, v) (spec/20_memory.md R45): DATA, SEED_LO and SEED_HI store, CMD executes, every other
index ignores the write (spec/10_state.md R32 to R36). -/
def busWrite (idx : RegIndex) (v : Word) (s : State) : Host.Outcome State Fault Refusal :=
  match regAt idx with
  | some .cmd => runCommandWord v s
  | some .data => .next (s.setData v)
  | some .seedLo => .next (s.setSeedLo v)
  | some .seedHi => .next (s.setSeedHi v)
  | some .stateLo => .next s
  | some .stateHi => .next s
  | some .residue => .next s
  | some .status => .next s
  | some .result => .next s
  | some .resultHi => .next s
  | none => .next s

/-- BusRead(idx): the host gets the value; the engine's fields stay as they are (spec/20_memory.md
R44). -/
def busRead (idx : RegIndex) (s : State) : State := s.answerRead (readRegister idx s)

/-- The platform's reset (spec/70_reset_and_hazards.md R160): every field of R20 goes to its reset
value. What the bus will still deliver and what it has answered is not the engine's (assumption
log 3). -/
def platformReset (s : State) : State := { State.reset with pending := s.pending, reads := s.reads }

/-- One bus event, whole: accesses and commands are atomic (spec/20_memory.md R46,
spec/70_reset_and_hazards.md R166). -/
def serve (e : BusEvent) (s : State) : Host.Outcome State Fault Refusal :=
  match e with
  | .write idx v => busWrite idx v s
  | .read idx => .next (busRead idx s)
  | .reset => .next (platformReset s)

/-- The engine takes the next access in delivery order (spec/20_memory.md R51). With none pending it
does nothing: nothing in it runs on its own (spec/60_exceptions.md R145; assumption log 1). -/
def serveNext (s : State) : Host.Outcome State Fault Refusal :=
  match s.pending with
  | [] => .next s
  | e :: later => serve e (s.setPending later)

/-- The host's next access is `e`, ahead of what the bus already holds. -/
def deliverNext (e : BusEvent) (s : State) : State := s.setPending (e :: s.pending)

end Sys2Proof.Machine
end

