-- ==== Sys2Proof/Machine/Step.lean ====
section
/-!
DEFINITION. The step: one bus access (spec/70_reset_and_hazards.md R168).
-/

namespace Sys2Proof.Machine

/-- One step of the machine: the next bus access, whole (spec/20_memory.md R41, R51). -/
def step (s : State) : Host.Outcome State Fault Refusal := serveNext s

/-- `s` with the command word the table calls `w` as the host's next write to CMD. The engine fetches no
instructions: a command comes to it as a BusWrite to index 0 (spec/10_state.md R31, R37), so this is
where the next step finds its command (assumption log 1). -/
def State.withFetchWord (s : State) (nbits w : Nat) : State :=
  deliverNext (.write (regIndex .cmd) (tableWord nbits w)) s

end Sys2Proof.Machine
end

