-- ==== Sys2Proof/Machine/Reference.lean ====
section
/-!
DEFINITION. The reference hash Marvin32(B, seed) (spec/44_host_sequences.md R120, R121): Words are cut by
position in the whole stream, independently of how PUSH and MIX deliver it.
-/

namespace Sys2Proof.Machine

/-- Word `j` of a byte stream, `le32(B[4j], B[4j+1], B[4j+2], B[4j+3])` (R120, R121). -/
def streamWord (B : List Byte) (j : Nat) : Word :=
  le32 (B.getD (4 * j) 0) (B.getD (4 * j + 1) 0) (B.getD (4 * j + 2) 0) (B.getD (4 * j + 3) 0)

/-- The fold of `mix` over Words 0 to m-1 of the stream, `m = floor(len(B)/4)` (R120, R122). -/
def hashWords (h : HashState) (B : List Byte) : HashState :=
  (List.range (B.length / 4)).foldl (fun h j => mix h (streamWord B j)) h

/-- `B[4m .. len(B)]`: the last `len(B) mod 4` bytes (R120, R121). -/
def streamRemainder (B : List Byte) : List Byte := B.drop (4 * (B.length / 4))

/-- Marvin32(B, seed) (R120). -/
def marvin32 (B : List Byte) (seed : Seed) : Word :=
  finalize (hashWords (seedState seed) B) (streamRemainder B)

end Sys2Proof.Machine
end

