-- ==== Sys2Proof/Machine/HostSequences.lean ====
section
/-!
DEFINITION. The host's notation as bus events: statements (spec/30_encoding.md R71),
pseudo-instructions (R72) and the one-shot sequence (spec/44_host_sequences.md R123). These are host
programs, prefixes of `State.pending`; they add no engine state.
-/

namespace Sys2Proof.Machine

/-- `wr <REG>, <value>` (R71). -/
def hostWr (r : Reg) (v : Word) : BusEvent := .write (regIndex r) v

/-- `rd <REG>` (R71). -/
def hostRd (r : Reg) : BusEvent := .read (regIndex r)

/-- `cmd <mnemonic> [k]` (R71): a write of the command's word to CMD; `PUSH k` with k from 0 to 7. -/
def hostCmd (i : Instr) : BusEvent := hostWr .cmd (encode i)

/-- `seed S` (R72, R50). -/
def hostSeed (S : Seed) : List BusEvent :=
  [hostWr .seedLo (S.extractLsb' 0 32), hostWr .seedHi (S.extractLsb' 32 32), hostCmd .init]

/-- `mixw v` (R72). -/
def hostMixw (v : Word) : List BusEvent := [hostWr .data v, hostCmd .mix]

/-- `pushb b0 .. b(k-1)`, at most 4 bytes, absent bytes 0 (R72). -/
def hostPushb (b : List Byte) : List BusEvent :=
  [hostWr .data (wordOfBytes b), hostCmd (.push (BitVec.ofNat 3 b.length))]

/-- `pushs B` (R72, spec/44_host_sequences.md R124): one `pushb` per group of 4 bytes, then one for the
last `len(B) mod 4` bytes, left out when that is 0. -/
def hostPushs : List Byte → List BusEvent
  | b0 :: b1 :: b2 :: b3 :: rest => hostPushb [b0, b1, b2, b3] ++ hostPushs rest
  | [] => []
  | [b0] => hostPushb [b0]
  | [b0, b1] => hostPushb [b0, b1]
  | [b0, b1, b2] => hostPushb [b0, b1, b2]

/-- `finish` (R72). -/
def hostFinish : List BusEvent := [hostCmd .finish, hostRd .result]

/-- `mixw` of each whole Word of a stream, in order: the loop of spec/44_host_sequences.md R123. The last
`len(B) mod 4` bytes are no Word (R121). -/
def hostMixWords : List Byte → List BusEvent
  | b0 :: b1 :: b2 :: b3 :: rest => hostMixw (le32 b0 b1 b2 b3) ++ hostMixWords rest
  | [] => []
  | [_] => []
  | [_, _] => []
  | [_, _, _] => []

/-- The one-shot hash on the engine (spec/44_host_sequences.md R123), the PUSH of the remainder written
for every `n`, 0 included. -/
def hostOneShot (B : List Byte) (S : Seed) : List BusEvent :=
  hostSeed S ++ hostMixWords B ++ hostPushb (streamRemainder B) ++ hostFinish

/-- The one-shot hash with the line `cmd PUSH n` alone left out, as R123 allows when `n = 0`: the DATA
write of the line above it stays. -/
def hostOneShotKeepData (B : List Byte) (S : Seed) : List BusEvent :=
  hostSeed S ++ hostMixWords B ++ [hostWr .data (wordOfBytes (streamRemainder B))] ++ hostFinish

/-- The one-shot hash with both remainder lines left out, the `wr DATA` and the `cmd PUSH n`, for `n = 0`.
DESIGN CHOICE (log 12): R123 says "may be left out" on the PUSH line alone and is silent on the DATA write
before it; with that write left out too, DATA keeps what the loop wrote last instead of 0. -/
def hostOneShotNoPush (B : List Byte) (S : Seed) : List BusEvent :=
  hostSeed S ++ hostMixWords B ++ hostFinish

end Sys2Proof.Machine
end

