-- ==== Sys2Proof/Safety.lean ====
section
/-!
DEFINITION. What holds of every state the engine reaches, and what a session's byte stream is: the terms
the claims use.
-/

namespace Sys2Proof.Machine

/-- The residue buffer is never full between commands (spec/10_state.md R23,
spec/42_incremental_push.md R100, spec/60_exceptions.md R155). -/
abbrev ResidueNotFull (s : State) : Prop := s.res.length < 4

/-- ERRCODE is 0 exactly when ERR is 0, and otherwise one of the four codes (spec/10_state.md R34,
spec/60_exceptions.md R141). -/
abbrev ErrorCodeLegal (s : State) : Prop :=
  (s.err = false ↔ s.errcode = 0#4) ∧ s.errcode.toNat ≤ 4

/-- Before the first INIT since reset the hashing state and `result` are as reset left them, and
E_RESIDUE cannot have been recorded (spec/10_state.md R21 to R25, R28, spec/60_exceptions.md R144,
spec/90_conflicts.md C6). -/
abbrev UntouchedBeforeInit (s : State) : Prop :=
  s.inited = false →
    s.lo = 0#32 ∧ s.hi = 0#32 ∧ s.res = [] ∧ s.result = 0#32 ∧ s.errcode ≠ 4#4

/-- The invariant of the engine, kept by every step from every state that has it. -/
abbrev State.Inv (s : State) : Prop :=
  ResidueNotFull s ∧ ErrorCodeLegal s ∧ UntouchedBeforeInit s

/-- The session invariant (spec/44_host_sequences.md R122): an INIT of `seed` has run, and the hashing
state is that of the byte stream `B`. -/
abbrev SessionHolds (seed : Seed) (B : List Byte) (s : State) : Prop :=
  s.inited = true ∧ s.hash = hashWords (seedState seed) B ∧ s.res = streamRemainder B

/-- The command a bus event makes the engine run, if it is a write to CMD of a word that decodes to one. -/
def commandOf : BusEvent → Option Instr
  | .write idx v => if idx = 0#4 then decodedCommand (decode v) else none
  | .read _ => none
  | .reset => none

/-- `s` after an error of code `c` is recorded (spec/60_exceptions.md R142, R143): ERR is 1, ERRCODE holds
the first code since the last clear, and every other field is as it was. -/
def errorRecorded (c : BitVec 4) (s : State) : State :=
  { s with err := true, errcode := if s.err = true then s.errcode else c }

/-- The error a word written to CMD raises in state `s`, read off the word's bits and the state: the
causes of spec/60_exceptions.md R141 in the priority of R144. `none` when the command succeeds. -/
def commandFailure (w : Word) (s : State) : Option (BitVec 4) :=
  let op := (w.extractLsb' 0 4).toNat
  let cnt := (w.extractLsb' 8 3).toNat
  if 6 ≤ op ∨ w.extractLsb' 4 4 ≠ 0#4 ∨ w.extractLsb' 11 21 ≠ 0#21 ∨ (op ≠ 3 ∧ cnt ≠ 0) then some 1#4
  else if op = 3 ∧ 4 < cnt then some 2#4
  else if s.inited = false ∧ (op = 2 ∨ op = 3 ∨ op = 4) then some 3#4
  else if op = 2 ∧ s.res ≠ [] then some 4#4
  else none

/-- The byte-serial form of a push (spec/42_incremental_push.md R102): each byte is appended, and a buffer
of four bytes is mixed and emptied. -/
def pushSerially (h : HashState) (res : List Byte) : List Byte → HashState × List Byte
  | [] => (h, res)
  | b :: bs =>
    if (res ++ [b]).length = 4 then pushSerially (mix h (wordOfBytes (res ++ [b]))) [] bs
    else pushSerially h (res ++ [b]) bs

/-- The bytes a command delivers to the session's stream (spec/44_host_sequences.md R122): 4 for a
successful MIX, k for a successful PUSH k, none otherwise. -/
def bytesDelivered (i : Instr) (s : State) : List Byte :=
  match i with
  | .nop => []
  | .init => []
  | .mix => if s.inited = true ∧ s.res = [] then dataBytes s.data 4 else []
  | .push k => if s.inited = true ∧ k.toNat ≤ 4 then dataBytes s.data k.toNat else []
  | .finish => []
  | .clrerr => []

/-- The bytes a bus event delivers. -/
def eventDelivers (e : BusEvent) (s : State) : List Byte :=
  match commandOf e with
  | some i => bytesDelivered i s
  | none => []

/-- The event neither resets the engine nor starts another session (spec/44_host_sequences.md R122). -/
def keepsSession (e : BusEvent) : Bool :=
  match e with
  | .write _ _ => decide (commandOf e ≠ some .init)
  | .read _ => true
  | .reset => false

/-- `serve` over a list of bus events, from left to right; `none` if one of them stopped the machine. -/
def serveAll : List BusEvent → State → Option State
  | [], s => some s
  | e :: es, s =>
    match serve e s with
    | .next t => serveAll es t
    | .fault _ => none
    | .refused _ => none

/-- `n` steps of the machine; `none` if one of them stopped it. -/
def stepTimes : Nat → State → Option State
  | 0, s => some s
  | n + 1, s =>
    match step s with
    | .next t => stepTimes n t
    | .fault _ => none
    | .refused _ => none

/-- The bytes a list of bus events delivers, in order, when it is served from `s`. -/
def streamDelivered : List BusEvent → State → List Byte
  | [], _ => []
  | e :: es, s =>
    match serve e s with
    | .next t => eventDelivers e s ++ streamDelivered es t
    | .fault _ => []
    | .refused _ => []

end Sys2Proof.Machine
end

