-- ==== Sys2Proof/Certificates/Slice0/Obligations.lean ====
section
/-!
DEFINITION. The statements about the engine, one definition each, listed in OBLIGATIONS.json. Each
docstring names the rule of spec/ it formalises.
-/

open Sys2Proof Sys2Proof.Machine

/-! Encoding (spec/30_encoding.md). -/

/-- Decoding answers a command exactly for the word the command encodes to, and only legal commands
have one (30_encoding.md sections 1 to 3): the decoder and the encoder are inverse to each other, and
no word has two meanings. -/
def Obligations.DecodeIsInverseOfEncode : Prop :=
  (∀ i : Instr, i.WellFormed → decode (encode i) = .command i) ∧
  (∀ (w : Word) (i : Instr), decode w = .command i → i.WellFormed ∧ encode i = w)

/-- R70: ten words are commands, three are E_COUNT, all others E_ILLEGAL. -/
def Obligations.LegalWordsAreExactlyTen : Prop :=
  ∀ w : Word,
    ((∃ i, decode w = .command i) ↔
      w ∈ [0x00000000#32, 0x00000001#32, 0x00000002#32, 0x00000004#32, 0x00000005#32,
        0x00000003#32, 0x00000103#32, 0x00000203#32, 0x00000303#32, 0x00000403#32]) ∧
    (decode w = .error .eCount ↔ w ∈ [0x00000503#32, 0x00000603#32, 0x00000703#32]) ∧
    (decode w = .error .eIllegal ↔
      w ∉ [0x00000000#32, 0x00000001#32, 0x00000002#32, 0x00000004#32, 0x00000005#32,
        0x00000003#32, 0x00000103#32, 0x00000203#32, 0x00000303#32, 0x00000403#32,
        0x00000503#32, 0x00000603#32, 0x00000703#32])

/-- R62: the exact match values of the opcode map, PUSH under its mask with CNT free and its words
`3 | k << 8`, and the reserved opcodes. -/
def Obligations.OpcodeMapMatchValues : Prop :=
  ∀ w : Word,
    (decode w = .command .nop ↔ w = 0x00000000#32) ∧
    (decode w = .command .init ↔ w = 0x00000001#32) ∧
    (decode w = .command .mix ↔ w = 0x00000002#32) ∧
    (decode w = .command .finish ↔ w = 0x00000004#32) ∧
    (decode w = .command .clrerr ↔ w = 0x00000005#32) ∧
    (w &&& 0xFFFFF8FF#32 = 0x00000003#32 ↔
      (decode w = .error .eCount ∨ ∃ k, decode w = .command (.push k))) ∧
    (∀ k, decode w = .command (.push k) ↔
      k.toNat ≤ 4 ∧ w = 0x00000003#32 ||| (k.setWidth 32 <<< 8)) ∧
    (∀ k : BitVec 3, 5 ≤ k.toNat → w = 0x00000003#32 ||| (k.setWidth 32 <<< 8) →
      decode w = .error .eCount) ∧
    (6 ≤ (w.extractLsb' 0 4).toNat → decode w = .error .eIllegal)

/-- A few words written out from the spec's encoding decode to the commands they stand for. -/
def Obligations.WrittenOutWordsDecode : Prop :=
  decode 0b00000000000000000000000000000000#32 = .command .nop ∧
  decode 0b00000000000000000000000000000001#32 = .command .init ∧
  decode 0b00000000000000000000000000000010#32 = .command .mix ∧
  decode 0b00000000000000000000001100000011#32 = .command (.push 3#3) ∧
  decode 0b00000000000000000000000000000100#32 = .command .finish ∧
  decode 0b00000000000000000000000000000101#32 = .command .clrerr

/-! The step (spec/20_memory.md, spec/70_reset_and_hazards.md). -/

/-- R31: a write to CMD executes the command its word decodes to, as one step, and raises the error of a
word that decodes to none; the word is kept nowhere; a read of CMD answers 0 and changes nothing. -/
def Obligations.StepRunsDecodedCommand : Prop :=
  ∀ (s : State) (later : List BusEvent),
    (∀ (w : Word) (i : Instr), s.pending = .write 0#4 w :: later → decode w = .command i →
      step s = exec i { s with pending := later }) ∧
    (∀ (w : Word), s.pending = .write 0#4 w :: later → decode w = .error .eIllegal →
      step s = .next (errorRecorded 1#4 { s with pending := later })) ∧
    (∀ (w : Word), s.pending = .write 0#4 w :: later → decode w = .error .eCount →
      step s = .next (errorRecorded 2#4 { s with pending := later })) ∧
    (s.pending = .read 0#4 :: later →
      step s = .next { s with pending := later, reads := s.reads ++ [0x00000000#32] })

/-- The model's own convention (assumption log 1): with no access pending a step changes nothing. -/
def Obligations.StepWithNothingPendingIdles : Prop :=
  ∀ s : State, s.pending = [] → step s = .next s

/-- The model's own fields `pending` and `reads`, in every step: the next access leaves `pending`, and only
a BusRead adds to `reads`. The spec orders the accesses (20_memory.md section 4); that they stand in
`pending` and that a step with none pending changes nothing is the model's choice (assumption log 1), as
is the list `reads` (log 2), and that a reset keeps what both hold (log 3). -/
def Obligations.StepServesAccessesInOrder : Prop :=
  ∀ s t : State, step s = .next t →
    t.pending = s.pending.tail ∧
    ((∀ idx later, s.pending ≠ .read idx :: later) → t.reads = s.reads) ∧
    (∀ idx later, s.pending = .read idx :: later → ∃ v, t.reads = s.reads ++ [v])

/-- A run serves the pending accesses from left to right, each to its end before the next: serving a list
of events one by one is what the machine does when the bus delivers that list (20_memory.md section 4).
That accesses and resets stand in `pending` is the model's choice (assumption logs 1 and 3). -/
def Obligations.RunServesPendingInOrder : Prop :=
  ∀ (es later : List BusEvent) (s t : State), s.pending = es ++ later →
    serveAll es { s with pending := later } = some t →
    stepTimes es.length s = some t

/-- Every command and every step completes: the engine neither hangs nor stops
(70_reset_and_hazards.md section 4). That a step with no access pending is a step at all, and changes
nothing, is the model's choice (assumption log 1). -/
def Obligations.EveryCommandAndStepCompletes : Prop :=
  (∀ (i : Instr) (s : State), ∃ t, exec i s = .next t) ∧ (∀ s : State, ∃ t, step s = .next t)

/-! The register window (spec/10_state.md section 2). -/

/-- What a BusRead answers at every index, with no other effect (10_state.md section 2). -/
def Obligations.ReadAnswersTheRegister : Prop :=
  ∀ (s : State) (idx : RegIndex) (later : List BusEvent), s.pending = .read idx :: later →
    step s = .next { s with
      pending := later
      reads := s.reads ++ [[0#32, s.data, s.seedLo, s.seedHi, s.lo, s.hi, residueWord s, statusWord s,
        s.result, 0#32, 0#32, 0#32, 0#32, 0#32, 0#32, 0#32].getD idx.toNat 0#32] }

/-- R33: RESIDUE shows `res[i]` in byte lane `i` and 0 above the fill; a write to it is ignored; it reads
0 after reset. -/
def Obligations.ResidueReadPacksBytes : Prop :=
  (∀ (s : State) (later : List BusEvent), s.pending = .read 6#4 :: later →
    ∃ v : Word, step s = .next { s with pending := later, reads := s.reads ++ [v] } ∧
      ∀ i < 4, v.extractLsb' (8 * i) 8 = if h : i < s.res.length then s.res[i] else 0x00#8) ∧
  (∀ (s : State) (v : Word) (later : List BusEvent), s.pending = .write 6#4 v :: later →
    step s = .next { s with pending := later }) ∧
  readRegister 6#4 State.reset = 0x00000000#32

/-- R34: the fields of STATUS, in every state of the engine's invariant; a write to it is ignored; every
field is 0 after reset. -/
def Obligations.StatusReadPacksFields : Prop :=
  (∀ (s : State) (later : List BusEvent), s.Inv → s.pending = .read 7#4 :: later →
    ∃ v : Word, step s = .next { s with pending := later, reads := s.reads ++ [v] } ∧
      (v.extractLsb' 0 2).toNat = s.res.length ∧
      v.getLsbD 2 = s.inited ∧
      v.getLsbD 3 = s.err ∧
      v.extractLsb' 4 4 = s.errcode ∧
      (v.getLsbD 3 = false → v.extractLsb' 4 4 = 0#4) ∧
      v.extractLsb' 8 24 = 0#24) ∧
  (∀ (s : State) (v : Word) (later : List BusEvent), s.pending = .write 7#4 v :: later →
    step s = .next { s with pending := later }) ∧
  readRegister 7#4 State.reset = 0x00000000#32

/-- R35: RESULT reads `result`, RESULT_HI reads 0, together the 64-bit finish value; writes to either are
ignored. -/
def Obligations.ResultReadsAsSixtyFourBits : Prop :=
  (∀ s : State,
    serveAll [.read 8#4, .read 9#4] s = some { s with reads := s.reads ++ [s.result, 0x00000000#32] }) ∧
  (∀ s : State, readRegister 9#4 s ++ readRegister 8#4 s = s.result.setWidth 64) ∧
  (∀ (s : State) (v : Word) (later : List BusEvent),
    s.pending = .write 8#4 v :: later ∨ s.pending = .write 9#4 v :: later →
    step s = .next { s with pending := later })

/-- R36: the reserved indices 10 to 15 read 0 and ignore writes, without side effect or error. -/
def Obligations.ReservedIndicesReadZeroIgnoreWrites : Prop :=
  ∀ (s : State) (idx : RegIndex) (later : List BusEvent), 10 ≤ idx.toNat →
    (s.pending = .read idx :: later →
      step s = .next { s with pending := later, reads := s.reads ++ [0x00000000#32] }) ∧
    (∀ v : Word, s.pending = .write idx v :: later → step s = .next { s with pending := later })

/-- R44: reads leave the engine as it is, and with no write between them every read of an index answers
the same value. -/
def Obligations.ReadsHaveNoSideEffects : Prop :=
  ∀ (idxs : List RegIndex) (s : State),
    serveAll (idxs.map .read) s =
      some { s with reads := s.reads ++ idxs.map (fun idx => readRegister idx s) }

/-- R45: what a write does at each index; operand writes are idempotent; writing the same MIX or PUSH
word twice absorbs the data twice, in the hashing state left as in the stream delivered. -/
def Obligations.WritesActByIndex : Prop :=
  (∀ (s : State) (idx : RegIndex) (v : Word) (later : List BusEvent), s.pending = .write idx v :: later →
    (idx = 1#4 → step s = .next { s with pending := later, data := v }) ∧
    (idx = 2#4 → step s = .next { s with pending := later, seedLo := v }) ∧
    (idx = 3#4 → step s = .next { s with pending := later, seedHi := v }) ∧
    (4 ≤ idx.toNat → step s = .next { s with pending := later }) ∧
    (∀ i, idx = 0#4 → decode v = .command i → step s = exec i { s with pending := later })) ∧
  (∀ (s : State) (idx : RegIndex) (v : Word), idx ≠ 0#4 →
    serveAll [.write idx v, .write idx v] s = serveAll [.write idx v] s) ∧
  (∀ s : State, s.inited = true → s.res = [] →
    serveAll [.write 0#4 0x00000002#32, .write 0#4 0x00000002#32] s =
      some { s with
        lo := (mix (mix ⟨s.lo, s.hi⟩ s.data) s.data).lo
        hi := (mix (mix ⟨s.lo, s.hi⟩ s.data) s.data).hi }) ∧
  (∀ (s : State) (k : BitVec 3), s.inited = true → k.toNat ≤ 4 →
    streamDelivered [.write 0#4 (encode (.push k)), .write 0#4 (encode (.push k))] s =
      dataBytes s.data k.toNat ++ dataBytes s.data k.toNat) ∧
  (∀ (s : State) (k : BitVec 3), s.inited = true → k.toNat ≤ 4 → s.res.length < 4 →
    ∃ t : State,
      serveAll [.write 0#4 (encode (.push k)), .write 0#4 (encode (.push k))] s = some t ∧
      (t.hash, t.res) = pushSerially s.hash s.res
        (dataBytes s.data k.toNat ++ dataBytes s.data k.toNat) ∧
      t = { s with lo := t.lo, hi := t.hi, res := t.res })

/-! Reset (spec/70_reset_and_hazards.md section 1). -/

/-- R161: the reset value of every field, and what every register reads after reset. -/
def Obligations.ResetValuesOfAllState : Prop :=
  State.reset.lo = 0x00000000#32 ∧ State.reset.hi = 0x00000000#32 ∧ State.reset.res = [] ∧
  State.reset.inited = false ∧ State.reset.err = false ∧ State.reset.errcode = 0#4 ∧
  State.reset.result = 0x00000000#32 ∧ State.reset.data = 0x00000000#32 ∧
  State.reset.seedLo = 0x00000000#32 ∧ State.reset.seedHi = 0x00000000#32 ∧
  (∀ idx : RegIndex, readRegister idx State.reset = 0x00000000#32)

/-- The reset event restores all ten fields from any state (70_reset_and_hazards.md section 1). That the
bus's undelivered accesses and answered reads stay is the model's choice (assumption log 3). -/
def Obligations.ResetEventRestoresEveryField : Prop :=
  ∀ (s : State) (later : List BusEvent), s.pending = .reset :: later →
    step s = .next { State.reset with pending := later, reads := s.reads }

/-- R162: until an INIT has executed, MIX, PUSH and FINISH raise E_NOINIT whatever accesses came since
reset; INIT with seed 0 gives the reset hashing state and sets INITED. -/
def Obligations.HashingBeforeInitIsRefused : Prop :=
  (∀ (es : List BusEvent) (t : State), (∀ e ∈ es, commandOf e ≠ some .init) →
    serveAll es State.reset = some t →
    exec .mix t = .next (errorRecorded 3#4 t) ∧
    (∀ k : BitVec 3, k.toNat ≤ 4 → exec (.push k) t = .next (errorRecorded 3#4 t)) ∧
    exec .finish t = .next (errorRecorded 3#4 t)) ∧
  (∀ s : State, s.seedLo = 0#32 → s.seedHi = 0#32 →
    exec .init s = .next { s with
      lo := State.reset.lo, hi := State.reset.hi, res := State.reset.res, inited := true })

/-! Errors (spec/60_exceptions.md, spec/30_encoding.md section 3). -/

/-- R142, R143 and R144: a command that fails changes only ERR and ERRCODE, ERRCODE keeps the first code,
and of several causes the first in priority is recorded. -/
def Obligations.FailedCommandRecordsFirstCause : Prop :=
  ∀ (s : State) (w : Word) (later : List BusEvent) (c : BitVec 4), s.pending = .write 0#4 w :: later →
    commandFailure w s = some c →
    step s = .next { s with
      pending := later, err := true, errcode := if s.err = true then s.errcode else c }

/-- R66, R67 and R68: a reserved opcode, a nonzero reserved bit, or a nonzero CNT on a command other than
PUSH raises E_ILLEGAL and changes nothing else. -/
def Obligations.IllegalWordsRecordIllegal : Prop :=
  ∀ (s : State) (w : Word) (later : List BusEvent), s.pending = .write 0#4 w :: later →
    (6 ≤ (w.extractLsb' 0 4).toNat ∨ w.extractLsb' 4 4 ≠ 0#4 ∨ w.extractLsb' 11 21 ≠ 0#21 ∨
      (w.extractLsb' 0 4 ≠ 3#4 ∧ w.extractLsb' 8 3 ≠ 0#3)) →
    step s = .next (errorRecorded 1#4 { s with pending := later })

/-- R69: a PUSH word with CNT 5, 6 or 7 raises E_COUNT and absorbs no bytes. -/
def Obligations.CountAboveFourRecordsCount : Prop :=
  ∀ (s : State) (w : Word) (later : List BusEvent), s.pending = .write 0#4 w :: later →
    w.extractLsb' 0 4 = 3#4 → w.extractLsb' 4 4 = 0#4 → w.extractLsb' 11 21 = 0#21 →
    5 ≤ (w.extractLsb' 8 3).toNat →
    step s = .next (errorRecorded 2#4 { s with pending := later })

/-- The model's inference (assumption log 11) for a command no word decodes to: a PUSH of more than four
bytes records E_COUNT before it looks at the state, as its word would (60_exceptions.md sections 2, 3). -/
def Obligations.UnencodablePushRecordsCount : Prop :=
  ∀ (s : State) (k : BitVec 3), 5 ≤ k.toNat →
    (∀ w : Word, decode w ≠ .command (.push k)) ∧ exec (.push k) s = .next (errorRecorded 2#4 s)

/-- R148: a recorded error blocks no command: whatever ERR and ERRCODE hold, a command writes every other
field just the same. -/
def Obligations.RecordedErrorBlocksNothing : Prop :=
  ∀ (i : Instr) (s t u : State) (e : Bool) (c : BitVec 4),
    exec i s = .next t → exec i { s with err := e, errcode := c } = .next u →
    u = { t with err := u.err, errcode := u.errcode }

/-! The commands. -/

/-- R110: NOP is exactly word 0, any other word with OP 0 is E_ILLEGAL, and NOP changes nothing in any
state. -/
def Obligations.NopHasNoEffect : Prop :=
  (∀ w : Word, w.extractLsb' 0 4 = 0#4 →
    decode w = if w = 0x00000000#32 then .command .nop else .error .eIllegal) ∧
  (∀ s : State, exec .nop s = .next s)

/-- R111: INIT is exactly word 1; it loads the seed halves, empties the residue and sets INITED, at any
time and for every seed, and changes nothing else. -/
def Obligations.InitLoadsSeedAndEmptiesResidue : Prop :=
  (∀ w : Word, decode w = .command .init ↔ w = 0x00000001#32) ∧
  (∀ s : State, exec .init s = .next { s with
    lo := s.seedLo, hi := s.seedHi, res := [], inited := true })

/-- R82: MIX is exactly word 2; it mixes DATA into (lo, hi) when a session runs and the residue is empty,
and otherwise raises E_NOINIT or E_RESIDUE. -/
def Obligations.MixAbsorbsDataWord : Prop :=
  (∀ w : Word, decode w = .command .mix ↔ w = 0x00000002#32) ∧
  (∀ s : State, s.inited = true → s.res = [] → exec .mix s = .next { s with
    lo := (mix ⟨s.lo, s.hi⟩ s.data).lo, hi := (mix ⟨s.lo, s.hi⟩ s.data).hi }) ∧
  (∀ s : State, s.inited = false → exec .mix s = .next (errorRecorded 3#4 s)) ∧
  (∀ s : State, s.inited = true → s.res ≠ [] → exec .mix s = .next (errorRecorded 4#4 s))

/-- R101: PUSH k appends the first k bytes of DATA. With room left they stay in the residue; when they
complete a Word it is mixed and the bytes after it become the residue. Before INIT it is E_NOINIT; a
count of 5 to 7 does not decode (E_COUNT). The residue holds at most 3 bytes, as it does in every state of the invariant (R23). -/
def Obligations.PushAppendsDataBytes : Prop :=
  (∀ (w : Word) (k : BitVec 3), k.toNat ≤ 4 →
    (decode w = .command (.push k) ↔ w = 0x00000003#32 ||| (k.setWidth 32 <<< 8))) ∧
  (∀ k : BitVec 3, 5 ≤ k.toNat →
    decode (0x00000003#32 ||| (k.setWidth 32 <<< 8)) = .error .eCount) ∧
  (∀ (s : State) (k : BitVec 3) (b : List Byte), s.inited = true → k.toNat ≤ 4 → s.res.length < 4 →
    b = (List.range k.toNat).map (fun i => s.data.extractLsb' (8 * i) 8) →
    (s.res.length + k.toNat < 4 → exec (.push k) s = .next { s with res := s.res ++ b }) ∧
    (∀ b0 b1 b2 b3 rest, s.res ++ b = b0 :: b1 :: b2 :: b3 :: rest →
      exec (.push k) s = .next { s with
        lo := (mix ⟨s.lo, s.hi⟩ (le32 b0 b1 b2 b3)).lo
        hi := (mix ⟨s.lo, s.hi⟩ (le32 b0 b1 b2 b3)).hi
        res := rest })) ∧
  (∀ (s : State) (k : BitVec 3), s.inited = false → k.toNat ≤ 4 →
    exec (.push k) s = .next (errorRecorded 3#4 s))

/-- R102: PUSH agrees with its byte-serial form, makes floor((len(res) + k) / 4) mixes (0 or 1) of four
consecutive stream bytes, and leaves (len(res) + k) mod 4 bytes. -/
def Obligations.PushIsByteSerial : Prop :=
  ∀ (s : State) (k : BitVec 3), s.inited = true → k.toNat ≤ 4 → s.res.length < 4 →
    ∃ t : State, exec (.push k) s = .next t ∧
      (t.hash, t.res) = pushSerially s.hash s.res (dataBytes s.data k.toNat) ∧
      t.hash = (List.range ((s.res.length + k.toNat) / 4)).foldl
        (fun h j => mix h (streamWord (s.res ++ dataBytes s.data k.toNat) j)) s.hash ∧
      (s.res.length + k.toNat) / 4 ≤ 1 ∧
      t.res.length = (s.res.length + k.toNat) % 4

/-- R103: PUSH 0 is the word 3, is legal, and changes nothing after INIT; before INIT it raises
E_NOINIT. -/
def Obligations.PushZeroChangesNothing : Prop :=
  decode 0x00000003#32 = .command (.push 0#3) ∧
  (∀ s : State, s.inited = true → s.res.length < 4 → exec (.push 0#3) s = .next s) ∧
  (∀ s : State, s.inited = false → exec (.push 0#3) s = .next (errorRecorded 3#4 s))

/-- R104: PUSH k reads DATA bits below 8k only: two values of DATA that agree there give the same
outcome, but for DATA itself. -/
def Obligations.PushIgnoresDataAboveCount : Prop :=
  ∀ (s t u : State) (k : BitVec 3) (d : Word),
    (∀ j < 8 * k.toNat, d.getLsbD j = s.data.getLsbD j) →
    exec (.push k) s = .next t → exec (.push k) { s with data := d } = .next u →
    u = { t with data := d }

/-- R93: FINISH is exactly word 4; it writes the finish value to `result` and nothing else, for every
residue; before INIT it raises E_NOINIT. -/
def Obligations.FinishWritesOnlyResult : Prop :=
  (∀ w : Word, decode w = .command .finish ↔ w = 0x00000004#32) ∧
  (∀ s : State, s.inited = true →
    exec .finish s = .next { s with result := finalize ⟨s.lo, s.hi⟩ s.res }) ∧
  (∀ s : State, s.inited = false → exec .finish s = .next (errorRecorded 3#4 s))

/-- R95: removing a FINISH from any sequence of accesses leaves `lo`, `hi` and `res` as they were, and a
second FINISH with no MIX, PUSH, INIT (or reset) between writes the same `result`. -/
def Obligations.FinishDoesNotMutateSession : Prop :=
  (∀ (before after : List BusEvent) (s t u : State),
    serveAll (before ++ .write 0#4 0x00000004#32 :: after) s = some t →
    serveAll (before ++ after) s = some u →
    t.lo = u.lo ∧ t.hi = u.hi ∧ t.res = u.res) ∧
  (∀ (between : List BusEvent) (s t u : State), s.inited = true →
    (∀ e ∈ between, e ≠ .reset ∧ commandOf e ≠ some .init ∧ commandOf e ≠ some .mix ∧
      ∀ k, commandOf e ≠ some (.push k)) →
    exec .finish s = .next t →
    serveAll (between ++ [.write 0#4 0x00000004#32]) t = some u →
    u.result = t.result)

/-- R112: CLRERR is exactly word 5; it clears ERR and ERRCODE, at any time, and nothing else. -/
def Obligations.ClrerrClearsErrorState : Prop :=
  (∀ w : Word, decode w = .command .clrerr ↔ w = 0x00000005#32) ∧
  (∀ s : State, exec .clrerr s = .next { s with err := false, errcode := 0#4 })

/-- R83: a MIX with the residue empty has exactly the effect of PUSH 4 with the same DATA, whose Word is
DATA's four lanes in stream order; with residue pending MIX is refused. -/
def Obligations.MixEqualsPushFour : Prop :=
  (∀ s : State, s.inited = true → s.res = [] →
    (∃ t, exec .mix s = .next t) ∧ exec .mix s = exec (.push 4#3) s ∧
    bytesDelivered .mix s = [s.data.extractLsb' 0 8, s.data.extractLsb' 8 8,
      s.data.extractLsb' 16 8, s.data.extractLsb' 24 8]) ∧
  (∀ s : State, s.inited = true → s.res ≠ [] →
    exec .mix s = .next (errorRecorded 4#4 s) ∧ bytesDelivered .mix s = [])

/-! The algorithm (spec/40_mixing_core.md, spec/41_finalization.md, spec/20_memory.md section 3). -/

/-- R80, with R9's rotation written out: the six assignments of `mix`. -/
def Obligations.MixIsTheSixAssignments : Prop :=
  ∀ lo hi v : Word,
    mix ⟨lo, hi⟩ v =
      let lo1 := lo + v
      let hi1 := hi ^^^ lo1
      let lo2 := ((lo1 <<< 20) ||| (lo1 >>> 12)) + hi1
      let hi2 := ((hi1 <<< 9) ||| (hi1 >>> 23)) ^^^ lo2
      let lo3 := ((lo2 <<< 27) ||| (lo2 >>> 5)) + hi2
      let hi3 := (hi2 <<< 19) ||| (hi2 >>> 13)
      ⟨lo3, hi3⟩

/-- R81: the zero state is fixed under any number of zero Words, the first addition wraps, a MIX that
may run has a result for every state and DATA, and `mix` is a bijection on the state for each Word. -/
def Obligations.MixCornerCases : Prop :=
  (∀ n : Nat, Nat.repeat (fun h => mix h 0#32) n ⟨0#32, 0#32⟩ = ⟨0#32, 0#32⟩) ∧
  (0xFFFFFFFF#32 + 1#32 = 0#32 ∧ mix ⟨0xFFFFFFFF#32, 0#32⟩ 1#32 = ⟨0#32, 0#32⟩ ∧
    mix ⟨0xFFFFFFFF#32, 0#32⟩ 1#32 = mix ⟨0#32, 0#32⟩ 0#32) ∧
  (∀ s : State, s.inited = true → s.res = [] → ∃ t, exec .mix s = .next t) ∧
  (∀ v : Word, Function.Bijective (fun h => mix h v))

/-- R90 and R91: the padding word as the fold in reverse order, and as the little-endian Word with the
residue in the low bytes, the sentinel 0x80 above them, and 0 above that. -/
def Obligations.PaddingWordPlacesSentinel : Prop :=
  ∀ r : List Byte, r.length ≤ 3 →
    finalWord r =
      r.reverse.foldl (fun (acc : Word) (b : Byte) => (acc <<< 8) ||| b.setWidth 32) 0x00000080#32 ∧
    (∀ i < 4, (finalWord r).extractLsb' (8 * i) 8 =
      if h : i < r.length then r[i] else if i = r.length then 0x80#8 else 0x00#8)

/-- R92: two mixes, the padding word and then 0, for every residue, and the XOR of the halves. -/
def Obligations.FinalizeIsTwoMixes : Prop :=
  ∀ (lo hi : Word) (r : List Byte),
    finalize ⟨lo, hi⟩ r =
      (mix (mix ⟨lo, hi⟩ (finalWord r)) 0x00000000#32).lo ^^^
        (mix (mix ⟨lo, hi⟩ (finalWord r)) 0x00000000#32).hi

/-- Words are little-endian and DATA's lanes are in the same order (20_memory.md section 3). -/
def Obligations.WordsAreLittleEndian : Prop :=
  (∀ b0 b1 b2 b3 : Byte, (le32 b0 b1 b2 b3).toNat =
    b0.toNat + 2 ^ 8 * b1.toNat + 2 ^ 16 * b2.toNat + 2 ^ 24 * b3.toNat) ∧
  (∀ v : Word, v = le32 (v.extractLsb' 0 8) (v.extractLsb' 8 8) (v.extractLsb' 16 8)
    (v.extractLsb' 24 8)) ∧
  (∀ (v : Word) (k i : Nat), i < k → k ≤ 4 →
    (dataBytes v k).length = k ∧ (dataBytes v k)[i]? = some (v.extractLsb' (8 * i) 8))

/-- R50: the seed's low half is SEED_LO and becomes `lo`, its high half SEED_HI and becomes `hi`. -/
def Obligations.SeedIsSplitLowHalfFirst : Prop :=
  (∀ lo hi : Word, (seedOf lo hi).extractLsb' 0 32 = lo ∧ (seedOf lo hi).extractLsb' 32 32 = hi ∧
    seedState (seedOf lo hi) = ⟨lo, hi⟩) ∧
  (∀ s t : State, exec .init s = .next t → t.lo = s.seedLo ∧ t.hi = s.seedHi) ∧
  seedOf 0xC498B3F8#32 0x5D70D359#32 = 0x5D70D359C498B3F8#64

/-! Which access changes which field (spec/10_state.md sections 1 and 4). In each statement the case of no
access pending is the model's idle step (assumption log 1), of which the spec's rules do not speak. -/

/-- R21 and R22: INIT loads `lo` and `hi` from the seed, reset clears them, and otherwise only the mixing
function changes them, at most once a step, through MIX and PUSH; STATE_LO and STATE_HI show them. -/
def Obligations.HashStateChangesOnlyByInitAndMixing : Prop :=
  (∀ s : State, readRegister 4#4 s = s.lo ∧ readRegister 5#4 s = s.hi) ∧
  ∀ s t : State, s.res.length < 4 → step s = .next t →
    match s.pending with
    | [] => t.hash = s.hash
    | .reset :: _ => t.lo = 0x00000000#32 ∧ t.hi = 0x00000000#32
    | e :: _ =>
      match commandOf e with
      | some .init => t.lo = s.seedLo ∧ t.hi = s.seedHi
      | some .mix => t.hash = s.hash ∨ t.hash = mix s.hash s.data
      | some (.push _) => t.hash = s.hash ∨ ∃ v, t.hash = mix s.hash v
      | _ => t.hash = s.hash

/-- Only PUSH, INIT and reset change the residue, and the latter two empty it (10_state.md section 1). -/
def Obligations.ResidueChangesOnlyByPushInitReset : Prop :=
  ∀ s t : State, step s = .next t →
    match s.pending with
    | [] => t.res = s.res
    | .reset :: _ => t.res = []
    | e :: _ =>
      match commandOf e with
      | some .init => t.res = []
      | some (.push _) => True
      | _ => t.res = s.res

/-- R25: INITED is set by INIT, cleared by reset, and changed by nothing else; while it is 0, MIX, PUSH
and FINISH raise E_NOINIT. -/
def Obligations.InitedChangesOnlyByInitAndReset : Prop :=
  (∀ s t : State, step s = .next t →
    t.inited = match s.pending with
      | [] => s.inited
      | .reset :: _ => false
      | e :: _ => if commandOf e = some .init then true else s.inited) ∧
  (∀ (s : State) (i : Instr), s.inited = false → i.WellFormed →
    i = .mix ∨ i = .finish ∨ (∃ k, i = .push k) → exec i s = .next (errorRecorded 3#4 s))

/-- R27 and R147: ERR and ERRCODE change only when a command fails, when CLRERR clears both, and at
reset. -/
def Obligations.ErrorStateChangesOnlyByFailureAndClear : Prop :=
  ∀ s t : State, step s = .next t →
    (t.err, t.errcode) = match s.pending with
      | [] => (s.err, s.errcode)
      | .reset :: _ => (false, 0#4)
      | .read _ :: _ => (s.err, s.errcode)
      | .write idx w :: _ =>
        if idx ≠ 0#4 then (s.err, s.errcode)
        else if w = 0x00000005#32 then (false, 0#4)
        else match commandFailure w s with
          | some c => if s.err = true then (s.err, s.errcode) else (true, c)
          | none => (s.err, s.errcode)

/-- R28: `result` holds the finish value of the last successful FINISH; no other command changes it, INIT
included; reset clears it. -/
def Obligations.ResultChangesOnlyByFinish : Prop :=
  ∀ s t : State, step s = .next t →
    t.result = match s.pending with
      | [] => s.result
      | .reset :: _ => 0x00000000#32
      | e :: _ =>
        if commandOf e = some .finish ∧ s.inited = true then finalize ⟨s.lo, s.hi⟩ s.res else s.result

/-- DATA, SEED_LO and SEED_HI change only by the host's write to each, and at reset; no command changes
them (10_state.md section 1). -/
def Obligations.OperandRegistersChangeOnlyByHostWrite : Prop :=
  ∀ s t : State, step s = .next t →
    (t.data, t.seedLo, t.seedHi) = match s.pending with
      | [] => (s.data, s.seedLo, s.seedHi)
      | .reset :: _ => (0x00000000#32, 0x00000000#32, 0x00000000#32)
      | .read _ :: _ => (s.data, s.seedLo, s.seedHi)
      | .write idx v :: _ =>
        (if idx = 1#4 then v else s.data, if idx = 2#4 then v else s.seedLo,
          if idx = 3#4 then v else s.seedHi)

/-! Invariants (spec/10_state.md R23, R34, spec/60_exceptions.md, spec/44_host_sequences.md R122). -/

/-- The engine's invariant is kept by every step from every state that has it: the residue is never full
between commands, ERRCODE is 0 exactly when ERR is and at most 4, and before INIT nothing of a session
exists. -/
def Obligations.StepKeepsEngineInvariant : Prop :=
  ∀ s t : State, s.Inv → step s = .next t → t.Inv

/-- The state after reset has the invariant. -/
def Obligations.ResetHasEngineInvariant : Prop := State.reset.Inv

/-- R122: INIT opens a session with the empty stream; every later step keeps the session invariant, the
stream growing by exactly the bytes its access delivers, until an INIT or a reset. -/
def Obligations.StepKeepsSessionInvariant : Prop :=
  (∀ (s t : State) (e : BusEvent) (later : List BusEvent), s.pending = e :: later →
    commandOf e = some .init → step s = .next t → SessionHolds (seedOf s.seedLo s.seedHi) [] t) ∧
  (∀ (seed : Seed) (B : List Byte) (s t : State), SessionHolds seed B s → step s = .next t →
    match s.pending with
    | [] => SessionHolds seed B t
    | e :: _ => keepsSession e = true → SessionHolds seed (B ++ eventDelivers e s) t)

/-- R125: whatever accesses deliver a byte stream after an INIT, in whatever chunks of MIX and PUSH, with
any FINISH, NOP, CLRERR, register reads and writes and failed commands between, a FINISH then writes the
reference hash of the stream. -/
def Obligations.FinishGivesReferenceHash : Prop :=
  ∀ (es : List BusEvent) (s0 s t : State), exec .init s0 = .next s →
    (∀ e ∈ es, keepsSession e = true) → serveAll es s = some t →
    exec .finish t = .next { t with
      result := marvin32 (streamDelivered es s) (seedOf s0.seedLo s0.seedHi) }

/-- R123: the one-shot sequence, from any state, answers the reference hash to its last read, records no
error, and takes nothing else from the bus; the line `cmd PUSH n` may be left out when `n = 0`, and the
DATA write before it then leaves 0 in DATA. -/
def Obligations.OneShotReadsReferenceHash : Prop :=
  (∀ (B : List Byte) (S : Seed) (s : State),
    ∃ t : State, serveAll (hostOneShot B S) s = some t ∧
      t.reads = s.reads ++ [marvin32 B S] ∧ t.result = marvin32 B S ∧
      SessionHolds S B t ∧ t.err = s.err ∧ t.errcode = s.errcode ∧ t.pending = s.pending) ∧
  (∀ (B : List Byte) (S : Seed) (s : State), B.length % 4 = 0 →
    ∃ t : State, serveAll (hostOneShotKeepData B S) s = some t ∧ t.data = 0 ∧
      t.reads = s.reads ++ [marvin32 B S] ∧ t.result = marvin32 B S ∧
      SessionHolds S B t ∧ t.err = s.err ∧ t.errcode = s.errcode ∧ t.pending = s.pending)

/-- The model's choice (log 12), where R123 is silent: for `n = 0` the DATA write of the remainder may be
left out together with the PUSH. The reads and the hash are the same, and DATA keeps what the seed and the
loop of MIX left in it. -/
def Obligations.OneShotWithoutRemainderLinesReadsReferenceHash : Prop :=
  ∀ (B : List Byte) (S : Seed) (s : State), B.length % 4 = 0 →
    ∃ u t : State, serveAll (hostSeed S ++ hostMixWords B) s = some u ∧
      serveAll (hostOneShotNoPush B S) s = some t ∧ t.data = u.data ∧
      t.reads = s.reads ++ [marvin32 B S] ∧ t.result = marvin32 B S ∧
      SessionHolds S B t ∧ t.err = s.err ∧ t.errcode = s.errcode ∧ t.pending = s.pending

/-- R124: after an INIT, `pushs P` delivers exactly the bytes P, records no error, and has the effect of
appending them one by one; any other accesses that deliver P, in whatever PUSH commands or MIX, have the
same effect on `lo`, `hi` and `res`. The residue holds at most 3 bytes, as in every state of the
invariant (R23). -/
def Obligations.PushsDeliversItsBytes : Prop :=
  ∀ (P : List Byte) (s : State), s.inited = true → s.res.length < 4 →
    (streamDelivered (hostPushs P) s = P ∧
      (∀ e ∈ hostPushs P, keepsSession e = true) ∧
      ∃ t : State, serveAll (hostPushs P) s = some t ∧
        (t.hash, t.res) = pushSerially s.hash s.res P ∧
        t.inited = true ∧ t.err = s.err ∧ t.errcode = s.errcode ∧ t.result = s.result) ∧
    (∀ (es : List BusEvent) (t : State), (∀ e ∈ es, keepsSession e = true) →
      streamDelivered es s = P → serveAll es s = some t →
      (t.hash, t.res) = pushSerially s.hash s.res P)

/-- Chunking independence (44_host_sequences.md section 3): two sequences of accesses that deliver the
same bytes after an INIT of the same seed leave the same `lo`, `hi` and `res`. -/
def Obligations.ChunkingDoesNotMatter : Prop :=
  ∀ (es es' : List BusEvent) (s s' t t' : State) (seed : Seed),
    SessionHolds seed [] s → SessionHolds seed [] s' →
    (∀ e ∈ es, keepsSession e = true) → (∀ e ∈ es', keepsSession e = true) →
    serveAll es s = some t → serveAll es' s' = some t' →
    streamDelivered es s = streamDelivered es' s' →
    t.lo = t'.lo ∧ t.hi = t'.hi ∧ t.res = t'.res

/-- Words are cut by position in the whole stream (44_host_sequences.md section 1): after a whole number
of Words, the rest of the stream is hashed as a stream of its own from the state reached. -/
def Obligations.StreamIsCutByPosition : Prop :=
  ∀ (h : HashState) (A B : List Byte), 4 ∣ A.length →
    hashWords h (A ++ B) = hashWords (hashWords h A) B ∧
    streamRemainder (A ++ B) = streamRemainder B ∧
    (streamRemainder B).length = B.length % 4
end

