-- ==== Sys2Proof/Laws/Encoding.lean ====
section
/-!
SUPPORT. The fields of a command word: what the encoder puts in them, and that they determine the word
(spec/30_encoding.md R61).
-/

namespace Sys2Proof

/-- The four fields make up the whole word. -/
theorem word_eq_of_fields {w v : Word} (hop : opField w = opField v) (hrsv0 : rsv0Field w = rsv0Field v)
    (hcnt : cntField w = cntField v) (hrsv1 : rsv1Field w = rsv1Field v) : w = v := by
  ext i h
  have bit {n start : Nat} (hf : w.extractLsb' start n = v.extractLsb' start n) (hs : start ≤ i)
      (hi : i < start + n) : w[i] = v[i] := by
    have hb := congrArg (fun x => x.getLsbD (i - start)) hf
    simpa [show i - start < n by omega, show start + (i - start) = i by omega, h,
      BitVec.getLsbD_eq_getElem] using hb
  rcases Nat.lt_or_ge i 4 with h4 | h4
  · exact bit hop (by omega) (by omega)
  rcases Nat.lt_or_ge i 8 with h8 | h8
  · exact bit hrsv0 h4 (by omega)
  rcases Nat.lt_or_ge i 11 with h11 | h11
  · exact bit hcnt h8 (by omega)
  · exact bit hrsv1 h11 (by omega)

/-- A PUSH word by its fields: every one of the eight counts. -/
theorem push_fields (k : BitVec 3) :
    opField (encode (.push k)) = 0x3#4 ∧ rsv0Field (encode (.push k)) = 0#4 ∧
      cntField (encode (.push k)) = k ∧ rsv1Field (encode (.push k)) = 0#21 := by
  revert k; decide

@[simp] theorem opField_encode (i : Instr) : opField (encode i) = opcode i := by
  cases i with
  | push k => exact (push_fields k).1
  | nop => decide
  | init => decide
  | mix => decide
  | finish => decide
  | clrerr => decide

@[simp] theorem rsv0Field_encode (i : Instr) : rsv0Field (encode i) = 0#4 := by
  cases i with
  | push k => exact (push_fields k).2.1
  | nop => decide
  | init => decide
  | mix => decide
  | finish => decide
  | clrerr => decide

@[simp] theorem cntField_encode (i : Instr) : cntField (encode i) = countOf i := by
  cases i with
  | push k => exact (push_fields k).2.2.1
  | nop => decide
  | init => decide
  | mix => decide
  | finish => decide
  | clrerr => decide

@[simp] theorem rsv1Field_encode (i : Instr) : rsv1Field (encode i) = 0#21 := by
  cases i with
  | push k => exact (push_fields k).2.2.2
  | nop => decide
  | init => decide
  | mix => decide
  | finish => decide
  | clrerr => decide

end Sys2Proof
end

