-- ==== Sys2Proof/Laws/State.lean ====
section
/-!
SUPPORT. What each update of State does to each field, so that no later proof unfolds an update.
-/

namespace Sys2Proof.Machine

variable (s : State)

@[simp] theorem State.setHash_lo (h : HashState) : (s.setHash h).lo = h.lo := rfl
@[simp] theorem State.setHash_hi (h : HashState) : (s.setHash h).hi = h.hi := rfl
@[simp] theorem State.setHash_res (h : HashState) : (s.setHash h).res = s.res := rfl
@[simp] theorem State.setHash_inited (h : HashState) : (s.setHash h).inited = s.inited := rfl
@[simp] theorem State.setHash_err (h : HashState) : (s.setHash h).err = s.err := rfl
@[simp] theorem State.setHash_errcode (h : HashState) : (s.setHash h).errcode = s.errcode := rfl
@[simp] theorem State.setHash_result (h : HashState) : (s.setHash h).result = s.result := rfl
@[simp] theorem State.setHash_data (h : HashState) : (s.setHash h).data = s.data := rfl
@[simp] theorem State.setHash_seedLo (h : HashState) : (s.setHash h).seedLo = s.seedLo := rfl
@[simp] theorem State.setHash_seedHi (h : HashState) : (s.setHash h).seedHi = s.seedHi := rfl
@[simp] theorem State.setHash_pending (h : HashState) : (s.setHash h).pending = s.pending := rfl
@[simp] theorem State.setHash_reads (h : HashState) : (s.setHash h).reads = s.reads := rfl
@[simp] theorem State.setHash_hash (h : HashState) : (s.setHash h).hash = h := rfl

@[simp] theorem State.setRes_lo (r : List Byte) : (s.setRes r).lo = s.lo := rfl
@[simp] theorem State.setRes_hi (r : List Byte) : (s.setRes r).hi = s.hi := rfl
@[simp] theorem State.setRes_res (r : List Byte) : (s.setRes r).res = r := rfl
@[simp] theorem State.setRes_inited (r : List Byte) : (s.setRes r).inited = s.inited := rfl
@[simp] theorem State.setRes_err (r : List Byte) : (s.setRes r).err = s.err := rfl
@[simp] theorem State.setRes_errcode (r : List Byte) : (s.setRes r).errcode = s.errcode := rfl
@[simp] theorem State.setRes_result (r : List Byte) : (s.setRes r).result = s.result := rfl
@[simp] theorem State.setRes_data (r : List Byte) : (s.setRes r).data = s.data := rfl
@[simp] theorem State.setRes_seedLo (r : List Byte) : (s.setRes r).seedLo = s.seedLo := rfl
@[simp] theorem State.setRes_seedHi (r : List Byte) : (s.setRes r).seedHi = s.seedHi := rfl
@[simp] theorem State.setRes_pending (r : List Byte) : (s.setRes r).pending = s.pending := rfl
@[simp] theorem State.setRes_reads (r : List Byte) : (s.setRes r).reads = s.reads := rfl
@[simp] theorem State.setRes_hash (r : List Byte) : (s.setRes r).hash = s.hash := rfl

@[simp] theorem State.setInited_lo (b : Bool) : (s.setInited b).lo = s.lo := rfl
@[simp] theorem State.setInited_hi (b : Bool) : (s.setInited b).hi = s.hi := rfl
@[simp] theorem State.setInited_res (b : Bool) : (s.setInited b).res = s.res := rfl
@[simp] theorem State.setInited_inited (b : Bool) : (s.setInited b).inited = b := rfl
@[simp] theorem State.setInited_err (b : Bool) : (s.setInited b).err = s.err := rfl
@[simp] theorem State.setInited_errcode (b : Bool) : (s.setInited b).errcode = s.errcode := rfl
@[simp] theorem State.setInited_result (b : Bool) : (s.setInited b).result = s.result := rfl
@[simp] theorem State.setInited_data (b : Bool) : (s.setInited b).data = s.data := rfl
@[simp] theorem State.setInited_seedLo (b : Bool) : (s.setInited b).seedLo = s.seedLo := rfl
@[simp] theorem State.setInited_seedHi (b : Bool) : (s.setInited b).seedHi = s.seedHi := rfl
@[simp] theorem State.setInited_pending (b : Bool) : (s.setInited b).pending = s.pending := rfl
@[simp] theorem State.setInited_reads (b : Bool) : (s.setInited b).reads = s.reads := rfl
@[simp] theorem State.setInited_hash (b : Bool) : (s.setInited b).hash = s.hash := rfl

@[simp] theorem State.setError_lo (e : Bool) (c : BitVec 4) : (s.setError e c).lo = s.lo := rfl
@[simp] theorem State.setError_hi (e : Bool) (c : BitVec 4) : (s.setError e c).hi = s.hi := rfl
@[simp] theorem State.setError_res (e : Bool) (c : BitVec 4) : (s.setError e c).res = s.res := rfl
@[simp] theorem State.setError_inited (e : Bool) (c : BitVec 4) : (s.setError e c).inited = s.inited := rfl
@[simp] theorem State.setError_err (e : Bool) (c : BitVec 4) : (s.setError e c).err = e := rfl
@[simp] theorem State.setError_errcode (e : Bool) (c : BitVec 4) : (s.setError e c).errcode = c := rfl
@[simp] theorem State.setError_result (e : Bool) (c : BitVec 4) : (s.setError e c).result = s.result := rfl
@[simp] theorem State.setError_data (e : Bool) (c : BitVec 4) : (s.setError e c).data = s.data := rfl
@[simp] theorem State.setError_seedLo (e : Bool) (c : BitVec 4) : (s.setError e c).seedLo = s.seedLo := rfl
@[simp] theorem State.setError_seedHi (e : Bool) (c : BitVec 4) : (s.setError e c).seedHi = s.seedHi := rfl
@[simp] theorem State.setError_pending (e : Bool) (c : BitVec 4) : (s.setError e c).pending = s.pending := rfl
@[simp] theorem State.setError_reads (e : Bool) (c : BitVec 4) : (s.setError e c).reads = s.reads := rfl
@[simp] theorem State.setError_hash (e : Bool) (c : BitVec 4) : (s.setError e c).hash = s.hash := rfl

@[simp] theorem State.setResult_lo (v : Word) : (s.setResult v).lo = s.lo := rfl
@[simp] theorem State.setResult_hi (v : Word) : (s.setResult v).hi = s.hi := rfl
@[simp] theorem State.setResult_res (v : Word) : (s.setResult v).res = s.res := rfl
@[simp] theorem State.setResult_inited (v : Word) : (s.setResult v).inited = s.inited := rfl
@[simp] theorem State.setResult_err (v : Word) : (s.setResult v).err = s.err := rfl
@[simp] theorem State.setResult_errcode (v : Word) : (s.setResult v).errcode = s.errcode := rfl
@[simp] theorem State.setResult_result (v : Word) : (s.setResult v).result = v := rfl
@[simp] theorem State.setResult_data (v : Word) : (s.setResult v).data = s.data := rfl
@[simp] theorem State.setResult_seedLo (v : Word) : (s.setResult v).seedLo = s.seedLo := rfl
@[simp] theorem State.setResult_seedHi (v : Word) : (s.setResult v).seedHi = s.seedHi := rfl
@[simp] theorem State.setResult_pending (v : Word) : (s.setResult v).pending = s.pending := rfl
@[simp] theorem State.setResult_reads (v : Word) : (s.setResult v).reads = s.reads := rfl
@[simp] theorem State.setResult_hash (v : Word) : (s.setResult v).hash = s.hash := rfl

@[simp] theorem State.setData_lo (v : Word) : (s.setData v).lo = s.lo := rfl
@[simp] theorem State.setData_hi (v : Word) : (s.setData v).hi = s.hi := rfl
@[simp] theorem State.setData_res (v : Word) : (s.setData v).res = s.res := rfl
@[simp] theorem State.setData_inited (v : Word) : (s.setData v).inited = s.inited := rfl
@[simp] theorem State.setData_err (v : Word) : (s.setData v).err = s.err := rfl
@[simp] theorem State.setData_errcode (v : Word) : (s.setData v).errcode = s.errcode := rfl
@[simp] theorem State.setData_result (v : Word) : (s.setData v).result = s.result := rfl
@[simp] theorem State.setData_data (v : Word) : (s.setData v).data = v := rfl
@[simp] theorem State.setData_seedLo (v : Word) : (s.setData v).seedLo = s.seedLo := rfl
@[simp] theorem State.setData_seedHi (v : Word) : (s.setData v).seedHi = s.seedHi := rfl
@[simp] theorem State.setData_pending (v : Word) : (s.setData v).pending = s.pending := rfl
@[simp] theorem State.setData_reads (v : Word) : (s.setData v).reads = s.reads := rfl
@[simp] theorem State.setData_hash (v : Word) : (s.setData v).hash = s.hash := rfl

@[simp] theorem State.setSeedLo_lo (v : Word) : (s.setSeedLo v).lo = s.lo := rfl
@[simp] theorem State.setSeedLo_hi (v : Word) : (s.setSeedLo v).hi = s.hi := rfl
@[simp] theorem State.setSeedLo_res (v : Word) : (s.setSeedLo v).res = s.res := rfl
@[simp] theorem State.setSeedLo_inited (v : Word) : (s.setSeedLo v).inited = s.inited := rfl
@[simp] theorem State.setSeedLo_err (v : Word) : (s.setSeedLo v).err = s.err := rfl
@[simp] theorem State.setSeedLo_errcode (v : Word) : (s.setSeedLo v).errcode = s.errcode := rfl
@[simp] theorem State.setSeedLo_result (v : Word) : (s.setSeedLo v).result = s.result := rfl
@[simp] theorem State.setSeedLo_data (v : Word) : (s.setSeedLo v).data = s.data := rfl
@[simp] theorem State.setSeedLo_seedLo (v : Word) : (s.setSeedLo v).seedLo = v := rfl
@[simp] theorem State.setSeedLo_seedHi (v : Word) : (s.setSeedLo v).seedHi = s.seedHi := rfl
@[simp] theorem State.setSeedLo_pending (v : Word) : (s.setSeedLo v).pending = s.pending := rfl
@[simp] theorem State.setSeedLo_reads (v : Word) : (s.setSeedLo v).reads = s.reads := rfl
@[simp] theorem State.setSeedLo_hash (v : Word) : (s.setSeedLo v).hash = s.hash := rfl

@[simp] theorem State.setSeedHi_lo (v : Word) : (s.setSeedHi v).lo = s.lo := rfl
@[simp] theorem State.setSeedHi_hi (v : Word) : (s.setSeedHi v).hi = s.hi := rfl
@[simp] theorem State.setSeedHi_res (v : Word) : (s.setSeedHi v).res = s.res := rfl
@[simp] theorem State.setSeedHi_inited (v : Word) : (s.setSeedHi v).inited = s.inited := rfl
@[simp] theorem State.setSeedHi_err (v : Word) : (s.setSeedHi v).err = s.err := rfl
@[simp] theorem State.setSeedHi_errcode (v : Word) : (s.setSeedHi v).errcode = s.errcode := rfl
@[simp] theorem State.setSeedHi_result (v : Word) : (s.setSeedHi v).result = s.result := rfl
@[simp] theorem State.setSeedHi_data (v : Word) : (s.setSeedHi v).data = s.data := rfl
@[simp] theorem State.setSeedHi_seedLo (v : Word) : (s.setSeedHi v).seedLo = s.seedLo := rfl
@[simp] theorem State.setSeedHi_seedHi (v : Word) : (s.setSeedHi v).seedHi = v := rfl
@[simp] theorem State.setSeedHi_pending (v : Word) : (s.setSeedHi v).pending = s.pending := rfl
@[simp] theorem State.setSeedHi_reads (v : Word) : (s.setSeedHi v).reads = s.reads := rfl
@[simp] theorem State.setSeedHi_hash (v : Word) : (s.setSeedHi v).hash = s.hash := rfl

@[simp] theorem State.setPending_lo (p : List BusEvent) : (s.setPending p).lo = s.lo := rfl
@[simp] theorem State.setPending_hi (p : List BusEvent) : (s.setPending p).hi = s.hi := rfl
@[simp] theorem State.setPending_res (p : List BusEvent) : (s.setPending p).res = s.res := rfl
@[simp] theorem State.setPending_inited (p : List BusEvent) : (s.setPending p).inited = s.inited := rfl
@[simp] theorem State.setPending_err (p : List BusEvent) : (s.setPending p).err = s.err := rfl
@[simp] theorem State.setPending_errcode (p : List BusEvent) : (s.setPending p).errcode = s.errcode := rfl
@[simp] theorem State.setPending_result (p : List BusEvent) : (s.setPending p).result = s.result := rfl
@[simp] theorem State.setPending_data (p : List BusEvent) : (s.setPending p).data = s.data := rfl
@[simp] theorem State.setPending_seedLo (p : List BusEvent) : (s.setPending p).seedLo = s.seedLo := rfl
@[simp] theorem State.setPending_seedHi (p : List BusEvent) : (s.setPending p).seedHi = s.seedHi := rfl
@[simp] theorem State.setPending_pending (p : List BusEvent) : (s.setPending p).pending = p := rfl
@[simp] theorem State.setPending_reads (p : List BusEvent) : (s.setPending p).reads = s.reads := rfl
@[simp] theorem State.setPending_hash (p : List BusEvent) : (s.setPending p).hash = s.hash := rfl

@[simp] theorem State.answerRead_lo (v : Word) : (s.answerRead v).lo = s.lo := rfl
@[simp] theorem State.answerRead_hi (v : Word) : (s.answerRead v).hi = s.hi := rfl
@[simp] theorem State.answerRead_res (v : Word) : (s.answerRead v).res = s.res := rfl
@[simp] theorem State.answerRead_inited (v : Word) : (s.answerRead v).inited = s.inited := rfl
@[simp] theorem State.answerRead_err (v : Word) : (s.answerRead v).err = s.err := rfl
@[simp] theorem State.answerRead_errcode (v : Word) : (s.answerRead v).errcode = s.errcode := rfl
@[simp] theorem State.answerRead_result (v : Word) : (s.answerRead v).result = s.result := rfl
@[simp] theorem State.answerRead_data (v : Word) : (s.answerRead v).data = s.data := rfl
@[simp] theorem State.answerRead_seedLo (v : Word) : (s.answerRead v).seedLo = s.seedLo := rfl
@[simp] theorem State.answerRead_seedHi (v : Word) : (s.answerRead v).seedHi = s.seedHi := rfl
@[simp] theorem State.answerRead_pending (v : Word) : (s.answerRead v).pending = s.pending := rfl
@[simp] theorem State.answerRead_reads (v : Word) : (s.answerRead v).reads = s.reads ++ [v] := rfl
@[simp] theorem State.answerRead_hash (v : Word) : (s.answerRead v).hash = s.hash := rfl

@[simp] theorem State.hash_lo : s.hash.lo = s.lo := rfl
@[simp] theorem State.hash_hi : s.hash.hi = s.hi := rfl

/-! The platform's reset, field by field (spec/70_reset_and_hazards.md R161). -/

@[simp] theorem platformReset_lo : (platformReset s).lo = 0#32 := rfl
@[simp] theorem platformReset_hi : (platformReset s).hi = 0#32 := rfl
@[simp] theorem platformReset_res : (platformReset s).res = [] := rfl
@[simp] theorem platformReset_inited : (platformReset s).inited = false := rfl
@[simp] theorem platformReset_err : (platformReset s).err = false := rfl
@[simp] theorem platformReset_errcode : (platformReset s).errcode = 0#4 := rfl
@[simp] theorem platformReset_result : (platformReset s).result = 0#32 := rfl
@[simp] theorem platformReset_data : (platformReset s).data = 0#32 := rfl
@[simp] theorem platformReset_seedLo : (platformReset s).seedLo = 0#32 := rfl
@[simp] theorem platformReset_seedHi : (platformReset s).seedHi = 0#32 := rfl
@[simp] theorem platformReset_pending : (platformReset s).pending = s.pending := rfl
@[simp] theorem platformReset_reads : (platformReset s).reads = s.reads := rfl

/-- Two states with the same fields are the same state. -/
theorem State.eq_of_fields {s t : State} (hlo : s.lo = t.lo) (hhi : s.hi = t.hi) (hres : s.res = t.res)
    (hinited : s.inited = t.inited) (herr : s.err = t.err) (herrcode : s.errcode = t.errcode)
    (hresult : s.result = t.result) (hdata : s.data = t.data) (hseedLo : s.seedLo = t.seedLo)
    (hseedHi : s.seedHi = t.seedHi) (hpending : s.pending = t.pending) (hreads : s.reads = t.reads) :
    s = t := by
  cases s; cases t; simp_all

end Sys2Proof.Machine
end

