-- ==== Sys2Proof/Laws/Ops.lean ====
section
/-!
SUPPORT. One lemma for each shared operation that says once everything it can do.
-/

namespace Sys2Proof.Machine

/-! Recording and clearing an error (spec/60_exceptions.md R142, R143, R147). -/

/-- Recording an error writes `err` and the first code, and nothing else. -/
theorem raiseError_eq (c : ErrorCode) (s : State) :
    raiseError c s =
      { s with err := true, errcode := if s.err = true then s.errcode else errorNumber c } := by
  rcases s with ⟨lo, hi, res, inited, err, errcode, result, data, seedLo, seedHi, pending, reads⟩
  cases err <;> rfl

section
variable (c : ErrorCode) (s : State)

@[simp] theorem raiseError_lo : (raiseError c s).lo = s.lo := by simp [raiseError_eq]
@[simp] theorem raiseError_hi : (raiseError c s).hi = s.hi := by simp [raiseError_eq]
@[simp] theorem raiseError_res : (raiseError c s).res = s.res := by simp [raiseError_eq]
@[simp] theorem raiseError_inited : (raiseError c s).inited = s.inited := by simp [raiseError_eq]
@[simp] theorem raiseError_err : (raiseError c s).err = true := by simp [raiseError_eq]
@[simp] theorem raiseError_errcode :
    (raiseError c s).errcode = if s.err = true then s.errcode else errorNumber c := by
  simp [raiseError_eq]
@[simp] theorem raiseError_result : (raiseError c s).result = s.result := by simp [raiseError_eq]
@[simp] theorem raiseError_data : (raiseError c s).data = s.data := by simp [raiseError_eq]
@[simp] theorem raiseError_seedLo : (raiseError c s).seedLo = s.seedLo := by simp [raiseError_eq]
@[simp] theorem raiseError_seedHi : (raiseError c s).seedHi = s.seedHi := by simp [raiseError_eq]
@[simp] theorem raiseError_pending : (raiseError c s).pending = s.pending := by simp [raiseError_eq]
@[simp] theorem raiseError_reads : (raiseError c s).reads = s.reads := by simp [raiseError_eq]

end

/-- Every code an error records is one of 1 to 4 (R141). -/
theorem errorNumber_range (c : ErrorCode) : 1 ≤ (errorNumber c).toNat ∧ (errorNumber c).toNat ≤ 4 := by
  cases c <;> decide

/-! The seed (spec/20_memory.md R50). -/

/-- The session starts from the two seed registers, low half first. -/
theorem seedState_seedOf (lo hi : Word) : seedState (seedOf lo hi) = ⟨lo, hi⟩ := by
  simp only [seedState, seedOf, HashState.mk.injEq]
  constructor <;> ext i h <;>
    simp only [BitVec.getElem_setWidth, BitVec.getLsbD_and, BitVec.getLsbD_or, BitVec.getLsbD_ushiftRight,
      BitVec.getLsbD_shiftLeft, BitVec.getLsbD_setWidth]
  · have hmask : (0xFFFFFFFF#64).getLsbD i = true := by
      have hones : (0xFFFFFFFF#64) = (BitVec.allOnes 32).setWidth 64 := by decide
      rw [hones, BitVec.getLsbD_setWidth, BitVec.getLsbD_allOnes]
      simp; omega
    simp [hmask, h, show i < 64 by omega, BitVec.getLsbD_eq_getElem]
  · have hi64 : i < 64 := by omega
    simp [show 32 + i < 64 by omega, hi64, h, BitVec.getLsbD_eq_getElem]

/-! Appending bytes (spec/42_incremental_push.md R101). -/

@[simp] theorem dataBytes_length (v : Word) (k : Nat) : (dataBytes v k).length = k := by simp [dataBytes]

/-- Fewer than four bytes hold no whole Word. -/
theorem absorbWords_short (h : HashState) (b : List Byte) (hb : b.length < 4) :
    absorbWords h b = (h, b) := by
  match b, hb with
  | [], _ => rfl
  | [_], _ => rfl
  | [_, _], _ => rfl
  | [_, _, _], _ => rfl

/-- The bytes phase 2 leaves are fewer than four. -/
theorem absorbWords_rest_short (h : HashState) (b : List Byte) : (absorbWords h b).2.length < 4 := by
  induction h, b using absorbWords.induct with
  | case1 h b0 b1 b2 b3 rest ih => simpa [absorbWords] using ih
  | case2 => simp [absorbWords]
  | case3 => simp [absorbWords]
  | case4 => simp [absorbWords]
  | case5 => simp [absorbWords]

/-- Appending bytes writes `lo`, `hi` and `res`, and nothing else. -/
theorem appendBytes_frame (s : State) (b : List Byte) :
    appendBytes s b = (s.setHash (appendBytes s b).hash).setRes (appendBytes s b).res := by
  rw [appendBytes]
  by_cases h0 : 0 < s.res.length
  · by_cases h4 : (s.res ++ b.take (min (4 - s.res.length) b.length)).length = 4
    · rw [if_pos h0, if_pos h4]; rfl
    · rw [if_pos h0, if_neg h4]; rfl
  · rw [if_neg h0]; rfl

/-- What appending bytes writes depends on the hash state and the residue alone. -/
theorem appendBytes_congr {s t : State} (hhash : s.hash = t.hash) (hres : s.res = t.res)
    (b : List Byte) :
    (appendBytes s b).hash = (appendBytes t b).hash ∧ (appendBytes s b).res = (appendBytes t b).res := by
  rw [appendBytes, appendBytes, hhash, hres]
  by_cases h0 : 0 < t.res.length
  · by_cases h4 : (t.res ++ b.take (min (4 - t.res.length) b.length)).length = 4
    · simp only [if_pos h0, if_pos h4, absorbRest, State.setRes_hash, State.setHash_hash,
        State.setRes_res, and_self]
    · simp only [if_pos h0, if_neg h4, State.setRes_hash, State.setRes_res, hhash, and_self]
  · simp only [if_neg h0, absorbRest, hhash, State.setRes_hash, State.setHash_hash, State.setRes_res,
      and_self]

/-- A push of at most four bytes onto a residue that is not full: with room left the bytes stay in the
residue; otherwise the first four stream bytes are mixed and the others become the residue. -/
theorem appendBytes_eq (s : State) (b : List Byte) (hres : s.res.length < 4) (hb : b.length ≤ 4) :
    appendBytes s b =
      if s.res.length + b.length < 4 then s.setRes (s.res ++ b)
      else (s.setHash (mix s.hash (wordOfBytes (s.res ++ b)))).setRes ((s.res ++ b).drop 4) := by
  rcases s with ⟨lo, hi, res, inited, err, errcode, result, data, seedLo, seedHi, pending, reads⟩
  simp only at hres
  rcases res with _ | ⟨r0, _ | ⟨r1, _ | ⟨r2, _ | ⟨r3, res⟩⟩⟩⟩ <;>
    rcases b with _ | ⟨b0, _ | ⟨b1, _ | ⟨b2, _ | ⟨b3, _ | ⟨b4, b⟩⟩⟩⟩⟩ <;>
    first
      | rfl
      | (exfalso; simp at hres; done)
      | (exfalso; simp at hb; done)
      | (exfalso; simp at hres hb; omega)

end Sys2Proof.Machine
end

