-- ==== Sys2Proof/Laws/Machine.lean ====
section
/-!
SUPPORT. What a command, a bus event and a step can do, said once: the inversion lemmas the claims are
derived from.
-/

namespace Sys2Proof.Machine

/-- MIX answers one of three next states (spec/40_mixing_core.md R82). -/
theorem execMix_cases {s t : State} (h : execMix s = .next t) :
    (s.inited = false ∧ t = raiseError .eNoInit s) ∨
    (s.inited = true ∧ s.res ≠ [] ∧ t = raiseError .eResidue s) ∨
    (s.inited = true ∧ s.res = [] ∧ t = s.setHash (mix s.hash s.data)) := by
  unfold execMix at h
  by_cases hi : s.inited = false
  · rw [if_pos hi] at h
    exact .inl ⟨hi, by simpa using h.symm⟩
  rw [if_neg hi] at h
  have hi' : s.inited = true := by simpa using hi
  by_cases hr : s.res.length ≠ 0
  · rw [if_pos hr] at h
    exact .inr (.inl ⟨hi', by simpa using hr, by simpa using h.symm⟩)
  · rw [if_neg hr] at h
    exact .inr (.inr ⟨hi', by simpa using hr, by simpa using h.symm⟩)

/-- PUSH answers one of three next states (spec/42_incremental_push.md R101, spec/30_encoding.md R69). -/
theorem execPush_cases {k : BitVec 3} {s t : State} (h : execPush k s = .next t) :
    (4 < k.toNat ∧ t = raiseError .eCount s) ∨
    (k.toNat ≤ 4 ∧ s.inited = false ∧ t = raiseError .eNoInit s) ∨
    (k.toNat ≤ 4 ∧ s.inited = true ∧ t = appendBytes s (dataBytes s.data k.toNat)) := by
  unfold execPush at h
  split at h
  · exact .inl ⟨‹_›, by simpa using h.symm⟩
  · split at h
    · exact .inr (.inl ⟨by omega, ‹_›, by simpa using h.symm⟩)
    · exact .inr (.inr ⟨by omega, by simpa using ‹¬s.inited = false›, by simpa using h.symm⟩)

/-- FINISH answers one of two next states (spec/41_finalization.md R93). -/
theorem execFinish_cases {s t : State} (h : execFinish s = .next t) :
    (s.inited = false ∧ t = raiseError .eNoInit s) ∨
    (s.inited = true ∧ t = s.setResult (finalize s.hash s.res)) := by
  unfold execFinish at h
  split at h
  · exact .inl ⟨‹_›, by simpa using h.symm⟩
  · exact .inr ⟨by simpa using ‹¬s.inited = false›, by simpa using h.symm⟩

/-- INIT with the seed registers as the hash state (spec/43_control.md R111). -/
theorem execInit_next (s : State) :
    execInit s = .next (((s.setHash ⟨s.seedLo, s.seedHi⟩).setRes []).setInited true) := by
  simp only [execInit, seedState_seedOf]

/-- The window's indices: CMD, the three operand registers, and those that ignore writes. -/
theorem index_cases (idx : RegIndex) :
    idx = 0#4 ∨ idx = 1#4 ∨ idx = 2#4 ∨ idx = 3#4 ∨ 4 ≤ idx.toNat := by
  revert idx; decide

/-- No index from 4 on is CMD or an operand register. -/
theorem regAt_ignoring (idx : RegIndex) (h : 4 ≤ idx.toNat) :
    regAt idx ≠ some .cmd ∧ regAt idx ≠ some .data ∧ regAt idx ≠ some .seedLo ∧
      regAt idx ≠ some .seedHi := by
  revert idx; decide

/-- A served bus event is a reset, a read, a write that stores an operand, a write that is ignored, or a
write of a word to CMD. -/
theorem serve_cases {e : BusEvent} {s t : State} (h : serve e s = .next t) :
    (e = .reset ∧ t = platformReset s) ∨
    (∃ idx, e = .read idx ∧ t = s.answerRead (readRegister idx s)) ∨
    (∃ v, e = .write 1#4 v ∧ t = s.setData v) ∨
    (∃ v, e = .write 2#4 v ∧ t = s.setSeedLo v) ∨
    (∃ v, e = .write 3#4 v ∧ t = s.setSeedHi v) ∨
    (∃ idx v, e = .write idx v ∧ 4 ≤ idx.toNat ∧ t = s) ∨
    (∃ w i, e = .write 0#4 w ∧ decode w = .command i ∧ exec i s = .next t) ∨
    (∃ w c, e = .write 0#4 w ∧ decode w = .error c ∧ t = raiseError c s) := by
  cases e with
  | reset => exact .inl ⟨rfl, by simpa [serve] using h.symm⟩
  | read idx => exact .inr (.inl ⟨idx, rfl, by simpa [serve, busRead] using h.symm⟩)
  | write idx v =>
    simp only [serve, busWrite] at h
    obtain rfl | rfl | rfl | rfl | h4 := index_cases idx
    · simp only [show regAt 0#4 = some .cmd from rfl, runCommandWord] at h
      cases hd : decode v with
      | command i =>
        rw [hd] at h
        simp [hd, h]
      | error c =>
        rw [hd] at h
        simp only [Host.Outcome.next.injEq] at h
        simp [hd, h]
    · simp only [show regAt 1#4 = some .data from rfl, Host.Outcome.next.injEq] at h
      simp [h.symm]
    · simp only [show regAt 2#4 = some .seedLo from rfl, Host.Outcome.next.injEq] at h
      simp [h.symm]
    · simp only [show regAt 3#4 = some .seedHi from rfl, Host.Outcome.next.injEq] at h
      simp [h.symm]
    · have hignored : t = s := by
        have hr := regAt_ignoring idx h4
        split at h <;> first | (simpa using h.symm) | simp_all
      exact .inr (.inr (.inr (.inr (.inr (.inl ⟨idx, v, rfl, h4, hignored⟩)))))

/-- A step serves the next pending access on the state that no longer holds it, or idles. -/
theorem step_cases {s t : State} (h : step s = .next t) :
    (s.pending = [] ∧ t = s) ∨
    (∃ e later, s.pending = e :: later ∧ serve e (s.setPending later) = .next t) := by
  unfold step serveNext at h
  split at h
  · exact .inl ⟨‹_›, by simpa using h.symm⟩
  · exact .inr ⟨_, _, ‹_›, h⟩

/-- A step at a state with an access pending is the serving of that access. -/
theorem step_eq_serve {s : State} {e : BusEvent} {later : List BusEvent} (h : s.pending = e :: later) :
    step s = serve e (s.setPending later) := by
  simp [step, serveNext, h]

end Sys2Proof.Machine
end

