-- ==== Sys2Proof/Laws/PerInstr.lean ====
section
/-!
SUPPORT. Statements made per instruction. `EncodedFields`: the encoder puts a command's opcode and count in
OP and CNT and zero in both reserved fields (spec/30_encoding.md R61).
-/

namespace Sys2Proof.Laws

/-- The fields of a command's word. -/
def EncodedFields.Statement (i : Instr) : Prop :=
  opField (encode i) = opcode i ∧ rsv0Field (encode i) = 0#4 ∧ cntField (encode i) = countOf i ∧
    rsv1Field (encode i) = 0#21

/-- The fields of any command's word, from the encoder's field lemmas. -/
theorem encodedFields_of_encoder (i : Instr) : EncodedFields.Statement i :=
  ⟨opField_encode i, rsv0Field_encode i, cntField_encode i, rsv1Field_encode i⟩

theorem EncodedFields.nop : EncodedFields.Statement .nop := encodedFields_of_encoder _
theorem EncodedFields.init : EncodedFields.Statement .init := encodedFields_of_encoder _
theorem EncodedFields.mix : EncodedFields.Statement .mix := encodedFields_of_encoder _
theorem EncodedFields.push (k : BitVec 3) : EncodedFields.Statement (.push k) :=
  encodedFields_of_encoder _
theorem EncodedFields.finish : EncodedFields.Statement .finish := encodedFields_of_encoder _
theorem EncodedFields.clrerr : EncodedFields.Statement .clrerr := encodedFields_of_encoder _

end Sys2Proof.Laws
end

