-- ==== Sys2Proof/Laws/Runs.lean ====
section
/-!
SUPPORT. Small lemmas of the functions over sequences: runs of bus events, the streams they deliver, and the
byte-serial push, each over an empty, a longer and an appended sequence.
-/

namespace Sys2Proof.Machine

@[simp] theorem serveAll_nil (s : State) : serveAll [] s = some s := rfl

/-- Serving a list goes on from the state its first event leaves. -/
theorem serveAll_cons {e : BusEvent} {s t : State} (h : serve e s = .next t) (es : List BusEvent) :
    serveAll (e :: es) s = serveAll es t := by
  simp only [serveAll, h]

/-- Serving two lists in turn is serving the second from where the first leaves. -/
theorem serveAll_append (es es' : List BusEvent) (s : State) :
    serveAll (es ++ es') s = (serveAll es s).bind (serveAll es') := by
  induction es generalizing s with
  | nil => rfl
  | cons e es ih =>
    simp only [List.cons_append, serveAll]
    cases serve e s with
    | next t => exact ih t
    | fault r => rfl
    | refused r => rfl

@[simp] theorem streamDelivered_nil (s : State) : streamDelivered [] s = [] := rfl

/-- The stream of a list starts with what its first event delivers. -/
theorem streamDelivered_cons {e : BusEvent} {s t : State} (h : serve e s = .next t)
    (es : List BusEvent) :
    streamDelivered (e :: es) s = eventDelivers e s ++ streamDelivered es t := by
  simp only [streamDelivered, h]

/-- The stream of two lists in turn, where the first is served to its end. -/
theorem streamDelivered_append {es : List BusEvent} {s t : State} (h : serveAll es s = some t)
    (es' : List BusEvent) :
    streamDelivered (es ++ es') s = streamDelivered es s ++ streamDelivered es' t := by
  induction es generalizing s with
  | nil => simp only [serveAll_nil, Option.some.injEq] at h; subst h; rfl
  | cons e es ih =>
    cases hs : serve e s with
    | next u =>
      rw [serveAll_cons hs] at h
      rw [List.cons_append, streamDelivered_cons hs, streamDelivered_cons hs, ih h, List.append_assoc]
    | fault r => simp [serveAll, hs] at h
    | refused r => simp [serveAll, hs] at h

/-- Pushing two runs of bytes in turn is pushing them as one. -/
theorem pushSerially_append (h : HashState) (res a b : List Byte) :
    pushSerially h res (a ++ b) =
      pushSerially (pushSerially h res a).1 (pushSerially h res a).2 b := by
  induction a generalizing h res with
  | nil => rfl
  | cons x xs ih =>
    simp only [List.cons_append, pushSerially]
    split
    · exact ih _ _
    · exact ih _ _

/-- The byte-serial push never leaves a full residue. -/
theorem pushSerially_res_short (h : HashState) (res b : List Byte) (hres : res.length < 4) :
    (pushSerially h res b).2.length < 4 := by
  induction b generalizing h res with
  | nil => exact hres
  | cons x xs ih =>
    simp only [pushSerially]
    split
    · exact ih _ _ (by simp)
    · rename_i hne
      exact ih _ _ (by simp only [List.length_append, List.length_singleton] at hne ⊢; omega)

end Sys2Proof.Machine
end

