-- ==== Sys2Proof/Tests/Slice0.lean ====
section
/-!
SUPPORT. Tests of the model. Expected values are the spec's own: its encodings (spec/30_encoding.md R62) and
its vectors (spec/95_test_vectors.md, named in each test). Then one witness for each statement that has
hypotheses: a concrete state and operands that meet them all, for each clause at a boundary.
-/

namespace Sys2Proof.Tests

open Sys2Proof Sys2Proof.Machine

/-! Well-formedness: CNT above 4 is refused, CNT 4 is not (R69). -/

theorem test_push_five_is_ill_formed : ¬ (Instr.push 5#3).WellFormed := by decide
theorem test_push_seven_is_ill_formed : ¬ (Instr.push 7#3).WellFormed := by decide
theorem test_push_four_is_well_formed : (Instr.push 4#3).WellFormed := by decide

/-! Decoding: words written out bit by bit from R61 and R62 (RSV1, CNT, RSV0, OP). -/

theorem test_decode_nop : decode 0b000000000000000000000_000_0000_0000#32 = .command .nop := by decide
theorem test_decode_init : decode 0b000000000000000000000_000_0000_0001#32 = .command .init := by decide
theorem test_decode_mix : decode 0b000000000000000000000_000_0000_0010#32 = .command .mix := by decide
theorem test_decode_push_0 :
    decode 0b000000000000000000000_000_0000_0011#32 = .command (.push 0#3) := by decide
theorem test_decode_push_3 :
    decode 0b000000000000000000000_011_0000_0011#32 = .command (.push 3#3) := by decide
theorem test_decode_push_4 :
    decode 0b000000000000000000000_100_0000_0011#32 = .command (.push 4#3) := by decide
theorem test_decode_finish :
    decode 0b000000000000000000000_000_0000_0100#32 = .command .finish := by decide
theorem test_decode_clrerr :
    decode 0b000000000000000000000_000_0000_0101#32 = .command .clrerr := by decide
theorem test_encode_push_3 : encode (.push 3#3) = 0x00000303#32 := by decide
theorem test_table_word : decodeTableWord 32 0x00000403 = some (.push 4#3) := by decide

/-- Error words of vectors E-4 to E-8, E-11 and E-16. -/
theorem test_decode_errors :
    decode 0x00000503#32 = .error .eCount ∧ decode 0x00000006#32 = .error .eIllegal ∧
    decode 0x00000104#32 = .error .eIllegal ∧ decode 0x80000002#32 = .error .eIllegal ∧
    decode 0x00000012#32 = .error .eIllegal ∧ decode 0xFFFFFFFF#32 = .error .eIllegal ∧
    decode 0x00000015#32 = .error .eIllegal := by decide

/-! The algorithm. -/

/-- Vector MX-6: carries in every addition. -/
theorem test_mix_carries :
    mix ⟨0x12345678#32, 0x9ABCDEF0#32⟩ 0xDEADBEEF#32 = ⟨0x4351E639#32, 0xBB63EA57#32⟩ := by decide
/-- Vector FW-4. -/
theorem test_final_word_three : finalWord [0x41#8, 0x00#8, 0x62#8] = 0x80620041#32 := by decide
/-- Vector KV-1, the source's known vector. -/
theorem test_known_vector :
    marvin32 [0x41#8, 0x00#8, 0x62#8, 0x00#8, 0x63#8, 0x00#8, 0x64#8, 0x00#8, 0x65#8, 0x00#8, 0x66#8,
      0x00#8, 0x67#8, 0x00#8] 0x5D70D359C498B3F8#64 = 0xBA627C81#32 := by decide

/-! One step. `session` is the state after INIT with the known vector's seed, with `res` and `data` as
given; `sending` has one access pending; `after` is the next state, if there is one. -/

def session (res : List Byte) (data : Word) : State :=
  { State.reset with
    lo := 0xC498B3F8#32, hi := 0x5D70D359#32, seedLo := 0xC498B3F8#32, seedHi := 0x5D70D359#32
    res := res, data := data, inited := true }

def sending (e : BusEvent) (s : State) : State := { s with pending := [e] }

def after : Host.Outcome State Fault Refusal → Option State
  | .next s => some s
  | .fault _ => none
  | .refused _ => none

/-- Worked example of R110 and vector E-12. -/
theorem test_nop :
    (after (step (State.reset.withFetchWord 32 0x00000000))).map statusWord = some 0x00000000#32 := by
  decide
/-- Worked example of R111. -/
theorem test_init :
    (after (step (({ State.reset with seedLo := 0xC498B3F8#32, seedHi := 0x5D70D359#32 } :
      State).withFetchWord 32 0x00000001))).map (fun s => (s.lo, s.hi, statusWord s)) =
      some (0xC498B3F8#32, 0x5D70D359#32, 0x00000004#32) := by decide
/-- Worked example of R82, vector MX-7. -/
theorem test_mix :
    (after (step ((session [] 0x00620041#32).withFetchWord 32 0x00000002))).map
      (fun s => (s.lo, s.hi, s.data)) = some (0x28D1ABF0#32, 0xB1C64F43#32, 0x00620041#32) := by decide
/-- Vector E-9. -/
theorem test_mix_residue :
    (after (step ((session [0x61#8] 0#32).withFetchWord 32 0x00000002))).map
      (fun s => (s.lo, statusWord s)) = some (0xC498B3F8#32, 0x0000004D#32) := by decide
/-- Vector P-5: the residue is topped off and the last byte is left. -/
theorem test_push_straddles :
    (after (step ((session [0x61#8] 0x65646362#32).withFetchWord 32 0x00000403))).map
      (fun s => (s.lo, s.hi, s.res)) = some (0xD16E4ED0#32, 0xA15614AA#32, [0x65#8]) := by decide
/-- Vector P-2: a top-off that does not complete a Word keeps every byte (C2). -/
theorem test_push_keeps_residue :
    (after (step ((session [0x61#8] 0x00000062#32).withFetchWord 32 0x00000103))).map
      (fun s => (s.lo, s.res)) = some (0xC498B3F8#32, [0x61#8, 0x62#8]) := by decide
/-- Worked example of R93, vector H-12. -/
theorem test_finish_empty :
    (after (step ((session [] 0#32).withFetchWord 32 0x00000004))).map
      (fun s => (s.result, s.lo)) = some (0xF7F2C954#32, 0xC498B3F8#32) := by decide
/-- Vector E-2. -/
theorem test_finish_before_init :
    (after (step (State.reset.withFetchWord 32 0x00000004))).map
      (fun s => (s.result, statusWord s)) = some (0#32, 0x00000038#32) := by decide
/-- Vector E-17: from STATUS 0x4D. -/
theorem test_clrerr :
    (after (step (({ session [0x61#8] 0#32 with err := true, errcode := 4#4 } :
      State).withFetchWord 32 0x00000005))).map statusWord = some 0x00000005#32 := by decide
/-- Vectors RR-7 and RR-8. -/
theorem test_reads :
    readRegister 6#4 (session [0x61#8, 0x62#8, 0x63#8] 0#32) = 0x00636261#32 ∧
    readRegister 7#4 (session [0x61#8, 0x62#8, 0x63#8] 0#32) = 0x00000007#32 := by decide
/-- R72: `pushs` of five bytes is a PUSH 4 and a PUSH 1; R71: `cmd PUSH 3`. -/
theorem test_host_notation :
    hostPushs [0x61#8, 0x62#8, 0x63#8, 0x64#8, 0x65#8] =
      [.write 1#4 0x64636261#32, .write 0#4 0x00000403#32, .write 1#4 0x00000065#32,
        .write 0#4 0x00000103#32] ∧
    hostCmd (.push 3#3) = .write 0#4 0x00000303#32 := by decide

/-! Witnesses: the hypotheses of each statement can be met, clause by clause. -/

theorem witness_DecodeIsInverseOfEncode :
    (Instr.push 4#3).WellFormed ∧ (Instr.push 0#3).WellFormed ∧
    decode 0x00000403#32 = .command (.push 4#3) := by decide

theorem witness_OpcodeMapMatchValues :
    5 ≤ (5#3).toNat ∧ 5 ≤ (7#3).toNat ∧
    0x00000503#32 = 0x00000003#32 ||| ((5#3).setWidth 32 <<< 8) ∧
    0x00000703#32 = 0x00000003#32 ||| ((7#3).setWidth 32 <<< 8) ∧
    6 ≤ ((0x00000006#32).extractLsb' 0 4).toNat ∧ 6 ≤ ((0xFFFFFFFF#32).extractLsb' 0 4).toNat := by decide

theorem witness_StepRunsDecodedCommand :
    (sending (.write 0#4 0x00000403#32) State.reset).pending = [.write 0#4 0x00000403#32] ∧
    decode 0x00000403#32 = .command (.push 4#3) ∧
    (sending (.write 0#4 0x00000006#32) State.reset).pending = [.write 0#4 0x00000006#32] ∧
    decode 0x00000006#32 = .error .eIllegal ∧
    (sending (.write 0#4 0x00000503#32) State.reset).pending = [.write 0#4 0x00000503#32] ∧
    decode 0x00000503#32 = .error .eCount ∧
    (sending (.read 0#4) State.reset).pending = [.read 0#4] := by decide

theorem witness_StepWithNothingPendingIdles : State.reset.pending = [] := by decide

theorem witness_StepServesAccessesInOrder :
    (∃ t, step (sending (.read 8#4) State.reset) = .next t) ∧
    (∃ t, step (sending (.write 1#4 7#32) State.reset) = .next t) ∧
    (∀ idx later, (sending (.write 1#4 7#32) State.reset).pending ≠ .read idx :: later) := by
  refine ⟨⟨_, rfl⟩, ⟨_, rfl⟩, ?_⟩
  intro idx later h
  simp [sending] at h

theorem witness_RunServesPendingInOrder :
    (sending (.write 1#4 7#32) State.reset).pending = [.write 1#4 7#32] ++ [] ∧
    ∃ t, serveAll [.write 1#4 7#32] { sending (.write 1#4 7#32) State.reset with pending := [] } =
      some t := ⟨rfl, _, rfl⟩

theorem witness_ReadAnswersTheRegister :
    (sending (.read 0#4) State.reset).pending = [.read 0#4] ∧
    (sending (.read 9#4) State.reset).pending = [.read 9#4] ∧
    (sending (.read 15#4) State.reset).pending = [.read 15#4] := by decide

theorem witness_ResidueReadPacksBytes :
    (sending (.read 6#4) (session [0x61#8, 0x62#8, 0x63#8] 0#32)).pending = [.read 6#4] ∧
    (sending (.write 6#4 0xFFFFFFFF#32) State.reset).pending = [.write 6#4 0xFFFFFFFF#32] := by decide

theorem witness_StatusReadPacksFields :
    (sending (.read 7#4) (session [0x61#8, 0x62#8, 0x63#8] 0#32)).Inv ∧
    (sending (.read 7#4) (session [0x61#8, 0x62#8, 0x63#8] 0#32)).pending = [.read 7#4] ∧
    (sending (.read 7#4) { session [] 0#32 with err := true, errcode := 4#4 }).Inv ∧
    (sending (.write 7#4 0xFFFFFFFF#32) State.reset).pending = [.write 7#4 0xFFFFFFFF#32] := by decide

theorem witness_ResultReadsAsSixtyFourBits :
    (sending (.write 8#4 5#32) State.reset).pending = [.write 8#4 5#32] ∧
    (sending (.write 9#4 5#32) State.reset).pending = [.write 9#4 5#32] := by decide

theorem witness_ReservedIndicesReadZeroIgnoreWrites :
    10 ≤ (10#4).toNat ∧ 10 ≤ (15#4).toNat ∧
    (sending (.read 10#4) State.reset).pending = [.read 10#4] ∧
    (sending (.write 15#4 1#32) State.reset).pending = [.write 15#4 1#32] := by decide

theorem witness_WritesActByIndex :
    (sending (.write 1#4 5#32) State.reset).pending = [.write 1#4 5#32] ∧
    (sending (.write 2#4 5#32) State.reset).pending = [.write 2#4 5#32] ∧
    (sending (.write 3#4 5#32) State.reset).pending = [.write 3#4 5#32] ∧
    (sending (.write 4#4 5#32) State.reset).pending = [.write 4#4 5#32] ∧ 4 ≤ (4#4).toNat ∧
    (sending (.write 15#4 5#32) State.reset).pending = [.write 15#4 5#32] ∧ 4 ≤ (15#4).toNat ∧
    (sending (.write 0#4 5#32) State.reset).pending = [.write 0#4 5#32] ∧
    decode 5#32 = .command .clrerr ∧ 1#4 ≠ 0#4 ∧
    (session [] 7#32).inited = true ∧ (session [] 7#32).res = [] ∧
    (0#3).toNat ≤ 4 ∧ (4#3).toNat ≤ 4 ∧
    (session [0x61#8, 0x62#8, 0x63#8] 7#32).inited = true ∧
    (session [0x61#8, 0x62#8, 0x63#8] 7#32).res.length < 4 := by decide

theorem witness_ResetEventRestoresEveryField :
    (sending .reset (session [0x61#8] 7#32)).pending = [.reset] := by decide

theorem witness_HashingBeforeInitIsRefused :
    (∀ e ∈ [BusEvent.write 1#4 7#32, .write 0#4 0x00000002#32], commandOf e ≠ some .init) ∧
    (∃ t, serveAll [.write 1#4 7#32, .write 0#4 0x00000002#32] State.reset = some t) ∧
    (0#3).toNat ≤ 4 ∧ (4#3).toNat ≤ 4 ∧ State.reset.seedLo = 0#32 ∧ State.reset.seedHi = 0#32 :=
  ⟨by decide, ⟨_, rfl⟩, by decide, by decide, rfl, rfl⟩

theorem witness_FailedCommandRecordsFirstCause :
    (sending (.write 0#4 0x00000012#32) State.reset).pending = [.write 0#4 0x00000012#32] ∧
    commandFailure 0x00000012#32 State.reset = some 1#4 ∧
    commandFailure 0x00000503#32 State.reset = some 2#4 ∧
    commandFailure 0x00000002#32 State.reset = some 3#4 ∧
    commandFailure 0x00000403#32 State.reset = some 3#4 ∧
    commandFailure 0x00000004#32 State.reset = some 3#4 ∧
    commandFailure 0x00000002#32 (session [0x61#8] 0#32) = some 4#4 := by decide

theorem witness_IllegalWordsRecordIllegal :
    (sending (.write 0#4 0x00000006#32) State.reset).pending = [.write 0#4 0x00000006#32] ∧
    6 ≤ ((0x00000006#32).extractLsb' 0 4).toNat ∧
    (0x00000012#32).extractLsb' 4 4 ≠ 0#4 ∧ (0x80000002#32).extractLsb' 11 21 ≠ 0#21 ∧
    (0x00000104#32).extractLsb' 0 4 ≠ 3#4 ∧ (0x00000104#32).extractLsb' 8 3 ≠ 0#3 := by decide

theorem witness_CountAboveFourRecordsCount :
    (sending (.write 0#4 0x00000503#32) State.reset).pending = [.write 0#4 0x00000503#32] ∧
    (0x00000503#32).extractLsb' 0 4 = 3#4 ∧ (0x00000503#32).extractLsb' 4 4 = 0#4 ∧
    (0x00000503#32).extractLsb' 11 21 = 0#21 ∧ 5 ≤ ((0x00000503#32).extractLsb' 8 3).toNat := by decide

theorem witness_UnencodablePushRecordsCount : 5 ≤ (5#3).toNat ∧ 5 ≤ (7#3).toNat := by decide

theorem witness_RecordedErrorBlocksNothing :
    (∃ t, exec .mix (session [] 7#32) = .next t) ∧
    (∃ u, exec .mix { session [] 7#32 with err := true, errcode := 1#4 } = .next u) :=
  ⟨⟨_, rfl⟩, ⟨_, rfl⟩⟩

theorem witness_NopHasNoEffect :
    (0x00000000#32).extractLsb' 0 4 = 0#4 ∧ (0x00000010#32).extractLsb' 0 4 = 0#4 := by decide

theorem witness_MixAbsorbsDataWord :
    (session [] 7#32).inited = true ∧ (session [] 7#32).res = [] ∧ State.reset.inited = false ∧
    (session [0x61#8] 7#32).inited = true ∧ (session [0x61#8] 7#32).res ≠ [] := by decide

/-- Room left up to 3 bytes, exactly 4 bytes, and the largest push onto the fullest residue. -/
theorem witness_PushAppendsDataBytes :
    (session [0x61#8] 0x00006362#32).inited = true ∧ (4#3).toNat ≤ 4 ∧
    (session [0x61#8] 0x00006362#32).res.length < 4 ∧
    (session [0x61#8] 0x00006362#32).res.length + (2#3).toNat < 4 ∧
    (session [0x61#8] 0x00646362#32).res ++
      (List.range (3#3).toNat).map (fun i => (0x00646362#32).extractLsb' (8 * i) 8) =
        [0x61#8, 0x62#8, 0x63#8, 0x64#8] ∧
    (session [0x61#8, 0x62#8, 0x63#8] 0x67666564#32).res ++
      (List.range (4#3).toNat).map (fun i => (0x67666564#32).extractLsb' (8 * i) 8) =
        [0x61#8, 0x62#8, 0x63#8, 0x64#8, 0x65#8, 0x66#8, 0x67#8] ∧
    5 ≤ (5#3).toNat ∧ State.reset.inited = false := by decide

theorem witness_PushIsByteSerial :
    (session [0x61#8, 0x62#8, 0x63#8] 7#32).inited = true ∧ (4#3).toNat ≤ 4 ∧
    (session [0x61#8, 0x62#8, 0x63#8] 7#32).res.length < 4 ∧ (0#3).toNat ≤ 4 ∧
    (session [] 7#32).res.length < 4 := by decide

theorem witness_PushZeroChangesNothing :
    (session [0x61#8, 0x62#8, 0x63#8] 7#32).inited = true ∧
    (session [0x61#8, 0x62#8, 0x63#8] 7#32).res.length < 4 ∧ State.reset.inited = false := by decide

theorem witness_PushIgnoresDataAboveCount :
    (∀ j < 8 * (1#3).toNat, (0xFFFFFF41#32).getLsbD j = (session [] 0x00000041#32).data.getLsbD j) ∧
    (∃ t, exec (.push 1#3) (session [] 0x00000041#32) = .next t) ∧
    (∃ u, exec (.push 1#3) { session [] 0x00000041#32 with data := 0xFFFFFF41#32 } = .next u) :=
  ⟨by decide, ⟨_, rfl⟩, ⟨_, rfl⟩⟩

theorem witness_FinishWritesOnlyResult :
    (session [0x61#8] 7#32).inited = true ∧ State.reset.inited = false := by decide

theorem witness_FinishDoesNotMutateSession :
    (∃ t, serveAll ([.write 0#4 0x00000103#32] ++ .write 0#4 0x00000004#32 :: [.write 0#4 0x00000103#32])
      (session [] 0x61#32) = some t) ∧
    (∃ u, serveAll ([.write 0#4 0x00000103#32] ++ [.write 0#4 0x00000103#32]) (session [] 0x61#32) =
      some u) ∧
    (session [] 0x61#32).inited = true ∧
    (∀ e ∈ [BusEvent.write 1#4 7#32, .write 0#4 0x00000004#32, .write 0#4 0x00000005#32],
      e ≠ .reset ∧ commandOf e ≠ some .init ∧ commandOf e ≠ some .mix ∧
      ∀ k, commandOf e ≠ some (.push k)) ∧
    (∃ t, exec .finish (session [] 0x61#32) = .next t ∧
      ∃ u, serveAll ([.write 1#4 7#32] ++ [.write 0#4 0x00000004#32]) t = some u) :=
  ⟨⟨_, rfl⟩, ⟨_, rfl⟩, rfl, by decide, ⟨_, rfl, _, rfl⟩⟩

theorem witness_MixEqualsPushFour :
    (session [] 7#32).inited = true ∧ (session [] 7#32).res = [] ∧
    (session [0x61#8] 7#32).res ≠ [] := by decide

theorem witness_MixCornerCases : (session [] 7#32).inited = true ∧ (session [] 7#32).res = [] := by decide

theorem witness_PaddingWordPlacesSentinel :
    ([] : List Byte).length ≤ 3 ∧ [0x41#8, 0x00#8, 0x62#8].length ≤ 3 := by decide

theorem witness_WordsAreLittleEndian : 0 < 1 ∧ 1 ≤ 4 ∧ 3 < 4 ∧ 4 ≤ 4 := by decide

theorem witness_SeedIsSplitLowHalfFirst : ∃ t, exec .init (session [] 7#32) = .next t := ⟨_, rfl⟩

/-- Each access kind takes a step from a state with room in the residue; shared by the statements on
which access changes which field. -/
theorem witness_every_access_steps :
    (session [0x61#8, 0x62#8, 0x63#8] 0x64#32).res.length < 4 ∧
    (session [0x61#8, 0x62#8, 0x63#8] 0x64#32).Inv ∧
    (∀ e ∈ [BusEvent.reset, .read 7#4, .write 1#4 7#32, .write 2#4 7#32, .write 3#4 7#32,
        .write 4#4 7#32, .write 15#4 7#32, .write 0#4 0#32, .write 0#4 1#32, .write 0#4 2#32,
        .write 0#4 0x103#32, .write 0#4 0x403#32, .write 0#4 4#32, .write 0#4 5#32, .write 0#4 6#32],
      ∃ t, step (sending e (session [0x61#8, 0x62#8, 0x63#8] 0x64#32)) = .next t) ∧
    (∃ t, step (session [0x61#8, 0x62#8, 0x63#8] 0x64#32) = .next t) := by
  refine ⟨by decide, by decide, ?_, ⟨_, rfl⟩⟩
  simp only [List.forall_mem_cons, List.not_mem_nil, false_imp_iff, implies_true, and_true]
  exact ⟨⟨_, rfl⟩, ⟨_, rfl⟩, ⟨_, rfl⟩, ⟨_, rfl⟩, ⟨_, rfl⟩, ⟨_, rfl⟩, ⟨_, rfl⟩, ⟨_, rfl⟩, ⟨_, rfl⟩,
    ⟨_, rfl⟩, ⟨_, rfl⟩, ⟨_, rfl⟩, ⟨_, rfl⟩, ⟨_, rfl⟩, ⟨_, rfl⟩⟩

theorem witness_HashStateChangesOnlyByInitAndMixing :
    (sending (.write 0#4 0x103#32) (session [0x61#8, 0x62#8, 0x63#8] 0x64#32)).res.length < 4 ∧
    ∃ t, step (sending (.write 0#4 0x103#32) (session [0x61#8, 0x62#8, 0x63#8] 0x64#32)) = .next t :=
  ⟨by decide, _, rfl⟩

theorem witness_ResidueChangesOnlyByPushInitReset :
    ∃ t, step (sending (.write 0#4 0x103#32) (session [0x61#8] 0x64#32)) = .next t := ⟨_, rfl⟩

theorem witness_InitedChangesOnlyByInitAndReset :
    (∃ t, step (sending (.write 0#4 1#32) State.reset) = .next t) ∧ State.reset.inited = false ∧
    (Instr.push 4#3).WellFormed := ⟨⟨_, rfl⟩, rfl, rfl⟩

theorem witness_ErrorStateChangesOnlyByFailureAndClear :
    (∃ t, step (sending (.write 0#4 6#32) State.reset) = .next t) ∧
    (∃ t, step (sending (.write 0#4 5#32) State.reset) = .next t) := ⟨⟨_, rfl⟩, ⟨_, rfl⟩⟩

theorem witness_ResultChangesOnlyByFinish :
    ∃ t, step (sending (.write 0#4 4#32) (session [0x61#8] 0x64#32)) = .next t := ⟨_, rfl⟩

theorem witness_OperandRegistersChangeOnlyByHostWrite :
    ∃ t, step (sending (.write 3#4 9#32) State.reset) = .next t := ⟨_, rfl⟩

theorem witness_StepKeepsEngineInvariant :
    (sending (.write 0#4 0x403#32) (session [0x61#8, 0x62#8, 0x63#8] 0x64#32)).Inv ∧
    ∃ t, step (sending (.write 0#4 0x403#32) (session [0x61#8, 0x62#8, 0x63#8] 0x64#32)) = .next t :=
  ⟨by decide, _, rfl⟩

/-- A session with stream `[61]` takes a PUSH; INIT is a command of a pending event. -/
theorem witness_StepKeepsSessionInvariant :
    commandOf (.write 0#4 1#32) = some .init ∧
    (sending (.write 0#4 1#32) State.reset).pending = [.write 0#4 1#32] ∧
    (∃ t, step (sending (.write 0#4 1#32) State.reset) = .next t) ∧
    SessionHolds 0x5D70D359C498B3F8#64 [0x61#8] (sending (.write 0#4 0x303#32) (session [0x61#8] 7#32)) ∧
    (∃ t, step (sending (.write 0#4 0x303#32) (session [0x61#8] 7#32)) = .next t) ∧
    keepsSession (.write 0#4 0x303#32) = true :=
  ⟨by decide, rfl, ⟨_, rfl⟩, by decide, ⟨_, rfl⟩, by decide⟩

theorem witness_FinishGivesReferenceHash :
    (∃ s, exec .init State.reset = .next s ∧
      ∃ t, serveAll [.write 1#4 0x61#32, .write 0#4 0x103#32, .write 0#4 0x4#32] s = some t) ∧
    (∀ e ∈ [BusEvent.write 1#4 0x61#32, .write 0#4 0x103#32, .write 0#4 0x4#32], keepsSession e = true) :=
  ⟨⟨_, rfl, _, rfl⟩, by decide⟩

/-- The stream `61 62` as one PUSH 2 and as two PUSH 1. -/
theorem witness_ChunkingDoesNotMatter :
    SessionHolds 0x5D70D359C498B3F8#64 [] (session [] 0x6261#32) ∧
    (∀ e ∈ [BusEvent.write 0#4 0x203#32], keepsSession e = true) ∧
    (∀ e ∈ [BusEvent.write 0#4 0x103#32, .write 1#4 0x62#32, .write 0#4 0x103#32],
      keepsSession e = true) ∧
    (∃ t, serveAll [.write 0#4 0x203#32] (session [] 0x6261#32) = some t) ∧
    (∃ t, serveAll [.write 0#4 0x103#32, .write 1#4 0x62#32, .write 0#4 0x103#32]
      (session [] 0x6261#32) = some t) ∧
    streamDelivered [.write 0#4 0x203#32] (session [] 0x6261#32) =
      streamDelivered [.write 0#4 0x103#32, .write 1#4 0x62#32, .write 0#4 0x103#32]
        (session [] 0x6261#32) :=
  ⟨by decide, by decide, by decide, ⟨_, rfl⟩, ⟨_, rfl⟩, by decide⟩

theorem witness_StreamIsCutByPosition : 4 ∣ [0x61#8, 0x62#8, 0x63#8, 0x64#8].length := by decide

/-- A stream of no Word and one of a whole number of Words; the first clause has no hypotheses. -/
theorem witness_OneShotReadsReferenceHash :
    ([] : List Byte).length % 4 = 0 ∧ [0x61#8, 0x62#8, 0x63#8, 0x64#8].length % 4 = 0 := by decide

/-- The empty stream and one whole Word. -/
theorem witness_OneShotWithoutRemainderLinesReadsReferenceHash :
    ([] : List Byte).length % 4 = 0 ∧ [0x61#8, 0x62#8, 0x63#8, 0x64#8].length % 4 = 0 := by decide

/-- The bytes `62 63` after a residue of one and of three bytes, as two PUSH 1 with a FINISH between. -/
theorem witness_PushsDeliversItsBytes :
    (session [0x61#8] 0x62#32).inited = true ∧ (session [0x61#8] 0x62#32).res.length < 4 ∧
    (session [0x61#8, 0x61#8, 0x61#8] 0x62#32).res.length < 4 ∧
    (∀ e ∈ [BusEvent.write 0#4 0x103#32, .write 0#4 0x4#32, .write 1#4 0x63#32, .write 0#4 0x103#32],
      keepsSession e = true) ∧
    streamDelivered [.write 0#4 0x103#32, .write 0#4 0x4#32, .write 1#4 0x63#32, .write 0#4 0x103#32]
      (session [0x61#8] 0x62#32) = [0x62#8, 0x63#8] ∧
    (∃ t, serveAll [.write 0#4 0x103#32, .write 0#4 0x4#32, .write 1#4 0x63#32, .write 0#4 0x103#32]
      (session [0x61#8] 0x62#32) = some t) :=
  ⟨by decide, by decide, by decide, by decide, by decide, ⟨_, rfl⟩⟩

end Sys2Proof.Tests
end

section
/-!
PROOFS. The register window: the equation of a step for each kind of access, what the packed registers
show (spec/10_state.md section 2), and the statements on it (O5, O11 to O14).
-/

namespace Sys2Proof.Machine

/-! Serving one access. -/

/-- Recording an error, in the terms of the statements (spec/60_exceptions.md R142, R143). -/
theorem raiseError_eq_errorRecorded (c : ErrorCode) (s : State) :
    raiseError c s = errorRecorded (errorNumber c) s := raiseError_eq c s

/-- A word that decodes to a command runs it (spec/10_state.md R31). -/
theorem serve_write_cmd_of_command {w : Word} {i : Instr} (hd : decode w = .command i) (s : State) :
    serve (.write 0#4 w) s = exec i s := by
  change runCommandWord w s = exec i s
  simp only [runCommandWord, hd]

/-- A word that decodes to an error records it (spec/10_state.md R31). -/
theorem serve_write_cmd_of_error {w : Word} {c : ErrorCode} (hd : decode w = .error c) (s : State) :
    serve (.write 0#4 w) s = .next (errorRecorded (errorNumber c) s) := by
  change runCommandWord w s = .next (errorRecorded (errorNumber c) s)
  simp only [runCommandWord, hd, raiseError_eq_errorRecorded]

/-- Every index from 4 on ignores a write (spec/20_memory.md R45). -/
theorem serve_write_ignored {idx : RegIndex} (h4 : 4 ≤ idx.toNat) (v : Word) (s : State) :
    serve (.write idx v) s = .next s := by
  obtain ⟨hcmd, hdata, hseedLo, hseedHi⟩ := regAt_ignoring idx h4
  simp only [serve, busWrite]
  cases hr : regAt idx with
  | none => rfl
  | some r =>
    cases r with
    | cmd => exact absurd hr hcmd
    | data => exact absurd hr hdata
    | seedLo => exact absurd hr hseedLo
    | seedHi => exact absurd hr hseedHi
    | stateLo | stateHi | residue | status | result | resultHi => rfl

/-- A read appends the register's value to the answers (spec/20_memory.md R44). -/
theorem serve_read (idx : RegIndex) (s : State) :
    serve (.read idx) s = .next { s with reads := s.reads ++ [readRegister idx s] } := rfl

/-- A step that serves a read takes the access and appends the register's value to the answers. -/
theorem step_read {s : State} {idx : RegIndex} {later : List BusEvent} (hp : s.pending = .read idx :: later) :
    step s = .next { s with pending := later, reads := s.reads ++ [readRegister idx s] } := by
  rw [step_eq_serve hp, serve_read]; rfl

/-- A step that serves a write from index 4 on only takes the access. -/
theorem step_write_ignored {s : State} {idx : RegIndex} {v : Word} {later : List BusEvent}
    (hp : s.pending = .write idx v :: later) (h4 : 4 ≤ idx.toNat) :
    step s = .next { s with pending := later } := by
  rw [step_eq_serve hp, serve_write_ignored h4]; rfl

/-- The reserved indices name no register (spec/10_state.md R36). -/
theorem regAt_reserved (idx : RegIndex) (h : 10 ≤ idx.toNat) : regAt idx = none := by
  revert idx; decide

/-- The reserved indices read 0 (spec/10_state.md R36). -/
theorem readRegister_reserved {idx : RegIndex} (h : 10 ≤ idx.toNat) (s : State) :
    readRegister idx s = 0#32 := by
  simp only [readRegister, regAt_reserved idx h]

/-! The packed registers. -/

/-- Bit `j` of a little-endian Word is bit `j mod 8` of byte `j / 8` (spec/20_memory.md R47). -/
theorem getLsbD_le32 (b0 b1 b2 b3 : Byte) (j : Nat) :
    (le32 b0 b1 b2 b3).getLsbD j =
      if j < 8 then b0.getLsbD j else if j < 16 then b1.getLsbD (j - 8)
      else if j < 24 then b2.getLsbD (j - 16) else b3.getLsbD (j - 24) := by
  simp only [le32, BitVec.getLsbD_or, BitVec.getLsbD_shiftLeft, BitVec.getLsbD_setWidth]
  rcases Nat.lt_or_ge j 32 with h32 | h32
  · split_ifs with h8 h16 h24 <;>
      simp (disch := omega) [BitVec.getLsbD_of_ge, decide_eq_true, decide_eq_false]
  · simp (disch := omega) [BitVec.getLsbD_of_ge, decide_eq_false]

/-- Byte lane `i` of the Word a list forms is byte `i` of the list, 0 past its end (spec/20_memory.md
R47, R48). -/
theorem byteLane_wordOfBytes (l : List Byte) {i : Nat} (hi : i < 4) :
    byteLane (wordOfBytes l) i = l.getD i 0 := by
  ext j hj
  simp only [byteLane, wordOfBytes, BitVec.getElem_extractLsb', getLsbD_le32]
  interval_cases i
  · rw [if_pos (by omega)]; simp [hj]
  · rw [if_neg (by omega), if_pos (by omega)]; simp [hj]
  · rw [if_neg (by omega), if_neg (by omega), if_pos (by omega)]; simp [hj]
  · rw [if_neg (by omega), if_neg (by omega), if_neg (by omega)]; simp [hj]

/-- Each bit of STATUS shows one field (spec/10_state.md R34). -/
theorem getLsbD_statusWord (s : State) (j : Nat) :
    (statusWord s).getLsbD j =
      if j < 2 then (fill s).getLsbD j else if j = 2 then s.inited
      else if j = 3 then s.err else s.errcode.getLsbD (j - 4) := by
  simp only [statusWord, BitVec.getLsbD_or, BitVec.getLsbD_shiftLeft, BitVec.getLsbD_setWidth,
    BitVec.getLsbD_ofBool]
  rcases Nat.lt_or_ge j 32 with h32 | h32
  · split_ifs with h2 hinited herr
    · simp (disch := omega) [decide_eq_true]
    · subst hinited; simp
    · subst herr; simp
    · simp (disch := omega) [BitVec.getLsbD_of_ge, decide_eq_true, decide_eq_false]
  · simp (disch := omega) [if_neg, BitVec.getLsbD_of_ge, decide_eq_false]

/-- STATUS, field by field (spec/10_state.md R34). -/
theorem statusWord_fields (s : State) :
    (statusWord s).extractLsb' 0 2 = fill s ∧ (statusWord s).getLsbD 2 = s.inited ∧
      (statusWord s).getLsbD 3 = s.err ∧ (statusWord s).extractLsb' 4 4 = s.errcode ∧
      (statusWord s).extractLsb' 8 24 = 0#24 := by
  refine ⟨?_, by simp only [getLsbD_statusWord]; rfl, by simp only [getLsbD_statusWord]; rfl, ?_, ?_⟩
  · ext j hj
    rw [BitVec.getElem_extractLsb', getLsbD_statusWord, if_pos (by omega)]
    simp [hj]
  · ext j hj
    rw [BitVec.getElem_extractLsb', getLsbD_statusWord, if_neg (by omega), if_neg (by omega),
      if_neg (by omega)]
    simp [hj]
  · ext j hj
    rw [BitVec.getElem_extractLsb', getLsbD_statusWord, if_neg (by omega), if_neg (by omega),
      if_neg (by omega), BitVec.getLsbD_of_ge _ _ (by omega), BitVec.getElem_zero]

/-- FILL is the number of residue bytes while the buffer is not full (spec/10_state.md R24, R34). -/
theorem fill_toNat {s : State} (h : ResidueNotFull s) : (fill s).toNat = s.res.length := by
  rw [fill, BitVec.toNat_ofNat, Nat.mod_eq_of_lt h]

/-! The statements on the register window. -/

/-- Settles O5: a write to CMD is served by its decoder's answer. -/
theorem stepRunsDecodedCommand : Obligations.StepRunsDecodedCommand := by
  unfold Obligations.StepRunsDecodedCommand
  intro s later
  refine ⟨?_, ?_, ?_, step_read⟩
  · intro w i hp hd
    rw [step_eq_serve hp, serve_write_cmd_of_command hd]; rfl
  · intro w hp hd
    rw [step_eq_serve hp, serve_write_cmd_of_error hd]; rfl
  · intro w hp hd
    rw [step_eq_serve hp, serve_write_cmd_of_error hd]; rfl

/-- Settles O11: a lane of RESIDUE is a byte of the Word the residue forms. -/
theorem residueReadPacksBytes : Obligations.ResidueReadPacksBytes := by
  unfold Obligations.ResidueReadPacksBytes
  refine ⟨?_, ?_, by decide⟩
  · intro s later hp
    refine ⟨residueWord s, step_read hp, ?_⟩
    intro i hi
    calc (residueWord s).extractLsb' (8 * i) 8
        = s.res.getD i 0 := byteLane_wordOfBytes s.res hi
      _ = if h : i < s.res.length then s.res[i] else 0x00#8 := by
        split_ifs with hlt
        · exact List.getD_eq_getElem s.res 0 hlt
        · exact List.getD_eq_default s.res 0 (by omega)
  · intro s v later hp
    exact step_write_ignored hp (by decide)

/-- Settles O12: the fields of STATUS, with the invariant for FILL and for ERRCODE while ERR is 0. -/
theorem statusReadPacksFields : Obligations.StatusReadPacksFields := by
  unfold Obligations.StatusReadPacksFields
  refine ⟨?_, ?_, by decide⟩
  · intro s later hinv hp
    obtain ⟨hroom, ⟨hcode, -⟩, -⟩ := hinv
    obtain ⟨hfill, hinited, herr, herrcode, hzero⟩ := statusWord_fields s
    refine ⟨statusWord s, step_read hp, ?_, hinited, herr, herrcode, ?_, hzero⟩
    · rw [hfill, fill_toNat hroom]
    · rw [herr, herrcode]; exact hcode.mp
  · intro s v later hp
    exact step_write_ignored hp (by decide)

/-- Settles O13: RESULT_HI is the zero upper half of the widened finish value. -/
theorem resultReadsAsSixtyFourBits : Obligations.ResultReadsAsSixtyFourBits := by
  unfold Obligations.ResultReadsAsSixtyFourBits
  refine ⟨?_, ?_, ?_⟩
  · intro s
    rw [serveAll_cons (serve_read 8#4 s), serveAll_cons (serve_read 9#4 _), serveAll_nil]
    simp [readRegister, regAt]
  · intro s
    change 0#32 ++ s.result = s.result.setWidth 64
    exact (BitVec.setWidth_eq_append (by decide)).symm
  · rintro s v later (hp | hp)
    · exact step_write_ignored hp (by decide)
    · exact step_write_ignored hp (by decide)

/-- Settles O14: the reserved indices name no register. -/
theorem reservedIndicesReadZeroIgnoreWrites : Obligations.ReservedIndicesReadZeroIgnoreWrites := by
  unfold Obligations.ReservedIndicesReadZeroIgnoreWrites
  intro s idx later h10
  constructor
  · intro hp
    rw [step_read hp, readRegister_reserved h10]
  · intro v hp
    exact step_write_ignored hp (by omega)

end Sys2Proof.Machine
end

section
/-!
PROOFS. The decoder's answers by the fields of the word (spec/30_encoding.md R65 to R69), and the error a
word raises read off them (spec/60_exceptions.md R141, R144).
-/

namespace Sys2Proof

/-- The opcodes that are not reserved (spec/30_encoding.md R62). -/
theorem opcode_below_six (op : BitVec 4) (hop : op.toNat < 6) :
    op = 0#4 ∨ op = 1#4 ∨ op = 2#4 ∨ op = 3#4 ∨ op = 4#4 ∨ op = 5#4 := by
  revert op; decide

/-- A legal opcode with a count legal for it decodes to the command with that opcode and count. -/
theorem decodeOp_eq_command {op : BitVec 4} {k : BitVec 3} (hop : op.toNat < 6)
    (hzero : op ≠ 3#4 → k = 0#3) (hcount : op = 3#4 → k.toNat ≤ 4) :
    ∃ i, decodeOp op k = .command i ∧ opcode i = op ∧ countOf i = k ∧ i.WellFormed := by
  obtain rfl | rfl | rfl | rfl | rfl | rfl := opcode_below_six op hop
  · exact ⟨.nop, rfl, rfl, (hzero (by decide)).symm, rfl⟩
  · exact ⟨.init, rfl, rfl, (hzero (by decide)).symm, rfl⟩
  · exact ⟨.mix, rfl, rfl, (hzero (by decide)).symm, rfl⟩
  · exact ⟨.push k, rfl, rfl, rfl, decide_eq_true (hcount rfl)⟩
  · exact ⟨.finish, rfl, rfl, (hzero (by decide)).symm, rfl⟩
  · exact ⟨.clrerr, rfl, rfl, (hzero (by decide)).symm, rfl⟩

/-- The fields that make a word illegal (spec/30_encoding.md R66, R67, R68). -/
def IllegalFields (w : Word) : Prop :=
  rsv0Field w ≠ 0#4 ∨ rsv1Field w ≠ 0#21 ∨ 6 ≤ (opField w).toNat ∨
    (opField w ≠ 3#4 ∧ cntField w ≠ 0#3)

/-- The decoder's three answers, each with the fields of the word it answers for. -/
theorem decode_cases (w : Word) :
    (decode w = .error .eIllegal ∧ IllegalFields w) ∨
    (decode w = .error .eCount ∧ ¬ IllegalFields w ∧ opField w = 3#4 ∧ 4 < (cntField w).toNat) ∨
    (∃ i, decode w = .command i ∧ i.WellFormed ∧ w = encode i) := by
  unfold decode
  split_ifs with hreserved hop hcount hfive
  · exact .inl ⟨rfl, by unfold IllegalFields; tauto⟩
  · exact .inl ⟨rfl, .inr (.inr (.inl hop))⟩
  · exact .inl ⟨rfl, .inr (.inr (.inr hcount))⟩
  · refine .inr (.inl ⟨rfl, ?_, hfive⟩)
    unfold IllegalFields
    tauto
  · obtain ⟨hrsv0, hrsv1⟩ : rsv0Field w = 0#4 ∧ rsv1Field w = 0#21 := by tauto
    obtain ⟨i, hi, hopcode, hcountOf, hwf⟩ := decodeOp_eq_command (op := opField w) (k := cntField w)
      (by omega) (by tauto) (fun h3 => by have := not_and.mp hfive h3; omega)
    exact .inr (.inr ⟨i, hi, hwf, word_eq_of_fields (by rw [opField_encode, hopcode])
      (by rw [rsv0Field_encode, hrsv0]) (by rw [cntField_encode, hcountOf])
      (by rw [rsv1Field_encode, hrsv1])⟩)

/-- A word that decodes to a command is that command's word, and the command is legal. -/
theorem encode_of_decode {w : Word} {i : Instr} (hd : decode w = .command i) :
    i.WellFormed ∧ w = encode i := by
  obtain ⟨he, -⟩ | ⟨he, -⟩ | ⟨i', hi', hwf, hw⟩ := decode_cases w
  · rw [hd] at he; contradiction
  · rw [hd] at he; contradiction
  · obtain rfl : i = i' := by simpa [hd] using hi'
    exact ⟨hwf, hw⟩

/-- The same fields as the numbers `commandFailure` reads off the word. -/
theorem illegalFields_iff (w : Word) :
    IllegalFields w ↔ 6 ≤ (w.extractLsb' 0 4).toNat ∨ w.extractLsb' 4 4 ≠ 0#4 ∨
      w.extractLsb' 11 21 ≠ 0#21 ∨ ((w.extractLsb' 0 4).toNat ≠ 3 ∧ (w.extractLsb' 8 3).toNat ≠ 0) := by
  have hop : w.extractLsb' 0 4 = 3#4 ↔ (w.extractLsb' 0 4).toNat = 3 := BitVec.toNat_inj.symm
  have hcnt : w.extractLsb' 8 3 = 0#3 ↔ (w.extractLsb' 8 3).toNat = 0 := BitVec.toNat_inj.symm
  unfold IllegalFields opField rsv0Field cntField rsv1Field
  rw [ne_eq (w.extractLsb' 0 4), hop, ne_eq (w.extractLsb' 8 3), hcnt]
  tauto

/-- The fields of a legal command's word are legal. -/
theorem not_illegalFields_encode {i : Instr} (hwf : i.WellFormed) : ¬ IllegalFields (encode i) := by
  unfold IllegalFields
  rw [opField_encode, rsv0Field_encode, cntField_encode, rsv1Field_encode]
  cases i with
  | push k => simp [opcode]
  | nop | init | mix | finish | clrerr => decide

namespace Machine

/-- The error a legal command raises in a state (spec/60_exceptions.md R141, R144). -/
def stateFailure (i : Instr) (s : State) : Option (BitVec 4) :=
  match i with
  | .nop | .init | .clrerr => none
  | .mix => if s.inited = false then some 3#4 else if s.res ≠ [] then some 4#4 else none
  | .push _ | .finish => if s.inited = false then some 3#4 else none

/-- A word that decodes to an error fails with that error, whatever the state. -/
theorem commandFailure_of_error {w : Word} {c : ErrorCode} (hd : decode w = .error c) (s : State) :
    commandFailure w s = some (errorNumber c) := by
  obtain ⟨he, hill⟩ | ⟨he, hill, hop, hcnt⟩ | ⟨i, hi, -⟩ := decode_cases w
  · obtain rfl : c = .eIllegal := by simpa [hd] using he
    exact if_pos ((illegalFields_iff w).mp hill)
  · obtain rfl : c = .eCount := by simpa [hd] using he
    exact (if_neg (mt (illegalFields_iff w).mpr hill)).trans
      (if_pos ⟨congrArg BitVec.toNat hop, hcnt⟩)
  · rw [hd] at hi; contradiction

/-- The word of a legal command fails as the command does in the state. -/
theorem commandFailure_encode {i : Instr} (hwf : i.WellFormed) (s : State) :
    commandFailure (encode i) s = stateFailure i s := by
  have hop : (encode i).extractLsb' 0 4 = opcode i := opField_encode i
  have hcnt : (encode i).extractLsb' 8 3 = countOf i := cntField_encode i
  have hlegal := mt (illegalFields_iff (encode i)).mpr (not_illegalFields_encode hwf)
  unfold commandFailure
  rw [if_neg hlegal, hop, hcnt]
  cases i with
  | push k =>
    have hk : ¬ 4 < k.toNat := not_lt.mpr (of_decide_eq_true hwf)
    simp [opcode, countOf, stateFailure, hk]
  | nop | init | mix | finish | clrerr => simp [opcode, countOf, stateFailure]

end Machine
end Sys2Proof
end

section
/-!
PROOFS. Which access changes which field (spec/10_state.md sections 1 and 4): what each command does to a
field, a step by the command it runs, and the statements derived from them (O42, O44, O45, O46).
-/

namespace Sys2Proof.Machine

/-! What a command does to the error state. -/

/-- A legal command that fails in a state only records its error (spec/60_exceptions.md R142). -/
theorem exec_of_stateFailure {i : Instr} {s : State} {c : BitVec 4} (hwf : i.WellFormed)
    (hf : stateFailure i s = some c) : exec i s = .next (errorRecorded c s) := by
  cases i with
  | nop | init | clrerr => simp [stateFailure] at hf
  | mix =>
    change execMix s = _
    unfold stateFailure at hf
    split_ifs at hf with hinited hres
    · obtain rfl : 3#4 = c := Option.some.inj hf
      rw [execMix, if_pos hinited, raiseError_eq_errorRecorded]; rfl
    · obtain rfl : 4#4 = c := Option.some.inj hf
      rw [execMix, if_neg hinited, if_pos (mt List.length_eq_zero_iff.mp hres),
        raiseError_eq_errorRecorded]; rfl
  | push k =>
    change execPush k s = _
    unfold stateFailure at hf
    split_ifs at hf with hinited
    obtain rfl : 3#4 = c := Option.some.inj hf
    rw [execPush, if_neg (not_lt.mpr (of_decide_eq_true hwf)), if_pos hinited,
      raiseError_eq_errorRecorded]; rfl
  | finish =>
    change execFinish s = _
    unfold stateFailure at hf
    split_ifs at hf with hinited
    obtain rfl : 3#4 = c := Option.some.inj hf
    rw [execFinish, if_pos hinited, raiseError_eq_errorRecorded]; rfl

/-- Recording an error keeps the first one recorded (spec/60_exceptions.md R143). -/
theorem errorRecorded_errorState (c : BitVec 4) (s : State) :
    ((errorRecorded c s).err, (errorRecorded c s).errcode) =
      if s.err = true then (s.err, s.errcode) else (true, c) := by
  by_cases herr : s.err = true
  · simp [errorRecorded, herr]
  · simp [errorRecorded, herr]

/-- A word that does not decode to CLRERR is not CLRERR's word (spec/43_control.md R112). -/
theorem ne_clrerr_word {w : Word} {d : Decoded} (hd : decode w = d) (hne : d ≠ .command .clrerr) :
    w ≠ 0x00000005#32 := by
  rintro rfl
  exact hne (hd.symm.trans (by decide))

/-- A legal command other than CLRERR that succeeds leaves the error state (spec/60_exceptions.md R147). -/
theorem exec_errorState_of_success {i : Instr} {s t : State} (hwf : i.WellFormed) (hclr : i ≠ .clrerr)
    (hf : stateFailure i s = none) (h : exec i s = .next t) : (t.err, t.errcode) = (s.err, s.errcode) := by
  cases i with
  | clrerr => contradiction
  | nop => cases h; rfl
  | init => cases h; rfl
  | mix =>
    obtain ⟨hinited, -⟩ | ⟨hinited, hres, -⟩ | ⟨-, -, rfl⟩ := execMix_cases h
    · simp [stateFailure, hinited] at hf
    · simp [stateFailure, hinited, hres] at hf
    · rfl
  | push k =>
    obtain ⟨hk, -⟩ | ⟨-, hinited, -⟩ | ⟨-, -, rfl⟩ := execPush_cases h
    · exact absurd hk (not_lt.mpr (of_decide_eq_true hwf))
    · simp [stateFailure, hinited] at hf
    · rw [appendBytes_frame]; rfl
  | finish =>
    obtain ⟨hinited, -⟩ | ⟨-, rfl⟩ := execFinish_cases h
    · simp [stateFailure, hinited] at hf
    · rfl

/-! What a command does to the fields of a session. -/

/-- The session's fields, `lo`, `hi`, `res`, `inited` and `result`, are as before. -/
structure SameSession (s t : State) : Prop where
  hash : t.hash = s.hash
  res : t.res = s.res
  inited : t.inited = s.inited
  result : t.result = s.result

/-- A failing command leaves the session as it is (spec/60_exceptions.md R142). -/
theorem raiseError_sameSession (c : ErrorCode) (s : State) : SameSession s (raiseError c s) := by
  rw [raiseError_eq]; exact ⟨rfl, rfl, rfl, rfl⟩

/-- MIX leaves the hash state or mixes DATA into it once (spec/40_mixing_core.md R82). -/
theorem exec_mix_hash {s t : State} (h : exec .mix s = .next t) :
    t.hash = s.hash ∨ t.hash = mix s.hash s.data := by
  obtain ⟨-, rfl⟩ | ⟨-, -, rfl⟩ | ⟨-, -, rfl⟩ := execMix_cases h
  · exact .inl (raiseError_sameSession _ s).hash
  · exact .inl (raiseError_sameSession _ s).hash
  · exact .inr rfl

/-- PUSH onto a residue that is not full mixes at most one Word (spec/42_incremental_push.md R101, R102). -/
theorem exec_push_hash {k : BitVec 3} {s t : State} (hroom : ResidueNotFull s)
    (h : exec (.push k) s = .next t) : t.hash = s.hash ∨ ∃ v, t.hash = mix s.hash v := by
  obtain ⟨-, rfl⟩ | ⟨-, -, rfl⟩ | ⟨hk, -, rfl⟩ := execPush_cases h
  · exact .inl (raiseError_sameSession _ s).hash
  · exact .inl (raiseError_sameSession _ s).hash
  · rw [appendBytes_eq s _ hroom (by rwa [dataBytes_length])]
    split_ifs
    · exact .inl rfl
    · exact .inr ⟨_, rfl⟩

/-- FINISH does not write the hash state (spec/41_finalization.md R93). -/
theorem exec_finish_hash {s t : State} (h : exec .finish s = .next t) : t.hash = s.hash := by
  obtain ⟨-, rfl⟩ | ⟨-, rfl⟩ := execFinish_cases h
  · exact (raiseError_sameSession _ s).hash
  · rfl

/-- INIT is the only command that writes INITED (spec/10_state.md R25). -/
theorem exec_inited {i : Instr} {s t : State} (h : exec i s = .next t) :
    t.inited = if i = .init then true else s.inited := by
  cases i with
  | nop => cases h; rfl
  | init => cases h; rfl
  | clrerr => cases h; rfl
  | mix => obtain ⟨-, rfl⟩ | ⟨-, -, rfl⟩ | ⟨-, -, rfl⟩ := execMix_cases h <;> simp
  | push k =>
    obtain ⟨-, rfl⟩ | ⟨-, -, rfl⟩ | ⟨-, -, rfl⟩ := execPush_cases h
    · simp
    · simp
    · rw [appendBytes_frame]; simp
  | finish => obtain ⟨-, rfl⟩ | ⟨-, rfl⟩ := execFinish_cases h <;> simp

/-- FINISH is the only command that writes `result`, and only in a session (spec/10_state.md R28). -/
theorem exec_result {i : Instr} {s t : State} (h : exec i s = .next t) :
    t.result = if i = .finish ∧ s.inited = true then finalize s.hash s.res else s.result := by
  cases i with
  | nop => cases h; rfl
  | init => cases h; rfl
  | clrerr => cases h; rfl
  | mix => obtain ⟨-, rfl⟩ | ⟨-, -, rfl⟩ | ⟨-, -, rfl⟩ := execMix_cases h <;> simp
  | push k =>
    obtain ⟨-, rfl⟩ | ⟨-, -, rfl⟩ | ⟨-, -, rfl⟩ := execPush_cases h
    · simp
    · simp
    · rw [appendBytes_frame]; simp
  | finish => obtain ⟨hinited, rfl⟩ | ⟨hinited, rfl⟩ := execFinish_cases h <;> simp [hinited]

/-! A step by the command it runs. -/

/-- A served event is a reset, or it runs no command and leaves the session, or it runs one. -/
theorem serve_cases_by_command {e : BusEvent} {s t : State} (h : serve e s = .next t) :
    (e = .reset ∧ t = platformReset s) ∨
    (e ≠ .reset ∧ commandOf e = none ∧ SameSession s t) ∨
    (∃ w i, e = .write 0#4 w ∧ commandOf e = some i ∧ exec i s = .next t) := by
  obtain hreset | ⟨idx, rfl, rfl⟩ | ⟨v, rfl, rfl⟩ | ⟨v, rfl, rfl⟩ | ⟨v, rfl, rfl⟩ |
    ⟨idx, v, rfl, h4, rfl⟩ | ⟨w, i, rfl, hd, hexec⟩ | ⟨w, c, rfl, hd, rfl⟩ := serve_cases h
  · exact .inl hreset
  · exact .inr (.inl ⟨nofun, rfl, rfl, rfl, rfl, rfl⟩)
  · exact .inr (.inl ⟨nofun, rfl, rfl, rfl, rfl, rfl⟩)
  · exact .inr (.inl ⟨nofun, rfl, rfl, rfl, rfl, rfl⟩)
  · exact .inr (.inl ⟨nofun, rfl, rfl, rfl, rfl, rfl⟩)
  · have hidx : idx ≠ 0#4 := by rintro rfl; contradiction
    exact .inr (.inl ⟨nofun, by simp [commandOf, hidx], rfl, rfl, rfl, rfl⟩)
  · exact .inr (.inr ⟨w, i, rfl, by simp [commandOf, hd, decodedCommand], hexec⟩)
  · exact .inr (.inl ⟨nofun, by simp [commandOf, hd, decodedCommand], raiseError_sameSession c s⟩)

/-- A step idles, resets, serves an access that runs no command, or runs the command of its access. -/
theorem step_cases_by_command {s t : State} (h : step s = .next t) :
    (s.pending = [] ∧ t = s) ∨
    (∃ later, s.pending = .reset :: later ∧ t = platformReset (s.setPending later)) ∨
    (∃ e later, s.pending = e :: later ∧ e ≠ .reset ∧ commandOf e = none ∧ SameSession s t) ∨
    (∃ w later i, s.pending = .write 0#4 w :: later ∧ commandOf (.write 0#4 w) = some i ∧
      exec i (s.setPending later) = .next t) := by
  obtain hidle | ⟨e, later, hp, hs⟩ := step_cases h
  · exact .inl hidle
  obtain ⟨rfl, rfl⟩ | ⟨hreset, hcmd, hhash, hres, hinited, hresult⟩ | ⟨w, i, rfl, hcmd, hexec⟩ :=
    serve_cases_by_command hs
  · exact .inr (.inl ⟨later, hp, rfl⟩)
  · exact .inr (.inr (.inl ⟨e, later, hp, hreset, hcmd, hhash, hres, hinited, hresult⟩))
  · exact .inr (.inr (.inr ⟨w, later, i, hp, hcmd, hexec⟩))

/-! The statements on which access changes which field. -/

/-- Settles O42: INIT loads the seed halves, MIX and PUSH mix at most one Word, and no other access writes
the hash state. -/
theorem hashStateChangesOnlyByInitAndMixing : Obligations.HashStateChangesOnlyByInitAndMixing := by
  unfold Obligations.HashStateChangesOnlyByInitAndMixing
  refine ⟨fun s => ⟨rfl, rfl⟩, ?_⟩
  intro s t hroom h
  obtain ⟨hp, rfl⟩ | ⟨later, hp, rfl⟩ | ⟨e, later, hp, hreset, hcmd, hsame⟩ |
    ⟨w, later, i, hp, hcmd, hexec⟩ := step_cases_by_command h
  · simp only [hp]
  · simp only [hp]; exact ⟨rfl, rfl⟩
  · rw [hp]
    cases e with
    | reset => contradiction
    | read idx => simpa only [hcmd] using hsame.hash
    | write idx v => simpa only [hcmd] using hsame.hash
  · simp only [hp, hcmd]
    cases i with
    | nop | clrerr => cases hexec; rfl
    | init => rw [exec, execInit_next] at hexec; cases hexec; exact ⟨rfl, rfl⟩
    | mix => exact exec_mix_hash (s := s.setPending later) hexec
    | push k => exact exec_push_hash (s := s.setPending later) hroom hexec
    | finish => exact exec_finish_hash (s := s.setPending later) hexec

/-- Settles O44: INIT is the only command that writes INITED; the refusals are `stateFailure`'s first
cause. -/
theorem initedChangesOnlyByInitAndReset : Obligations.InitedChangesOnlyByInitAndReset := by
  unfold Obligations.InitedChangesOnlyByInitAndReset
  constructor
  · intro s t h
    obtain ⟨hp, rfl⟩ | ⟨later, hp, rfl⟩ | ⟨e, later, hp, hreset, hcmd, hsame⟩ |
      ⟨w, later, i, hp, hcmd, hexec⟩ := step_cases_by_command h
    · simp only [hp]
    · simp only [hp]; rfl
    · rw [hp, hsame.inited]
      cases e with
      | reset => contradiction
      | read idx | write idx v => simp [hcmd]
    · rw [hp, exec_inited hexec]; simp [hcmd]
  · intro s i hinited hwf hi
    refine exec_of_stateFailure hwf ?_
    obtain rfl | rfl | ⟨k, rfl⟩ := hi
    · exact if_pos hinited
    · exact if_pos hinited
    · exact if_pos hinited

/-- Settles O45: a word that decodes to an error fails with that error, a legal command fails by
`stateFailure`, and CLRERR is the one command that clears. -/
theorem errorStateChangesOnlyByFailureAndClear : Obligations.ErrorStateChangesOnlyByFailureAndClear := by
  unfold Obligations.ErrorStateChangesOnlyByFailureAndClear
  intro s t h
  obtain ⟨hp, rfl⟩ | ⟨e, later, hp, hs⟩ := step_cases h
  · simp only [hp]
  rw [hp]
  obtain ⟨rfl, rfl⟩ | ⟨idx, rfl, rfl⟩ | ⟨v, rfl, rfl⟩ | ⟨v, rfl, rfl⟩ | ⟨v, rfl, rfl⟩ |
    ⟨idx, v, rfl, h4, rfl⟩ | ⟨w, i, rfl, hd, hexec⟩ | ⟨w, c, rfl, hd, rfl⟩ := serve_cases hs
  · rfl
  · rfl
  · rfl
  · rfl
  · rfl
  · have hidx : idx ≠ 0#4 := by rintro rfl; contradiction
    simp [hidx]
  · obtain ⟨hwf, rfl⟩ := encode_of_decode hd
    by_cases hclr : i = .clrerr
    · subst hclr; cases hexec; rfl
    have hword : encode i ≠ 0x00000005#32 := ne_clrerr_word hd (by simpa using hclr)
    simp only [ne_eq, not_true, if_false, if_neg hword, commandFailure_encode hwf]
    cases hf : stateFailure i s with
    | none => exact exec_errorState_of_success (s := s.setPending later) hwf hclr hf hexec
    | some c =>
      rw [exec_of_stateFailure (s := s.setPending later) hwf hf] at hexec
      cases hexec
      exact errorRecorded_errorState c _
  · have hword : w ≠ 0x00000005#32 := ne_clrerr_word hd nofun
    simp only [ne_eq, not_true, if_false, if_neg hword, commandFailure_of_error hd]
    rw [raiseError_eq_errorRecorded]
    exact errorRecorded_errorState _ _

/-- Settles O46: FINISH is the only command that writes `result`. -/
theorem resultChangesOnlyByFinish : Obligations.ResultChangesOnlyByFinish := by
  unfold Obligations.ResultChangesOnlyByFinish
  intro s t h
  obtain ⟨hp, rfl⟩ | ⟨later, hp, rfl⟩ | ⟨e, later, hp, hreset, hcmd, hsame⟩ |
    ⟨w, later, i, hp, hcmd, hexec⟩ := step_cases_by_command h
  · simp only [hp]
  · simp only [hp]; rfl
  · rw [hp, hsame.result]
    cases e with
    | reset => contradiction
    | read idx | write idx v => simp [hcmd]
  · rw [hp, exec_result hexec]
    by_cases hfinish : i = .finish ∧ s.inited = true
    · simp [hcmd, hfinish, State.hash]
    · simp [hcmd, hfinish]

end Sys2Proof.Machine
end

section
/-!
PROOFS. The register window as a host sees it (spec/20_memory.md): reads of any length, what a write does at
each index, the same write made twice, the seed's halves, and the statements on them (O15, O16, O41).
-/

namespace Sys2Proof

/-- A legal command's word decodes to the command (spec/30_encoding.md R62, R65). -/
theorem decode_encode {i : Instr} (hwf : i.WellFormed) : decode (encode i) = .command i := by
  unfold decode
  rw [rsv0Field_encode, rsv1Field_encode, opField_encode, cntField_encode]
  cases i with
  | push k =>
    have hk : ¬ 4 < k.toNat := not_lt.mpr (of_decide_eq_true hwf)
    simp [opcode, countOf, decodeOp, hk]
  | nop | init | mix | finish | clrerr => rfl

/-- PUSH of at most four bytes is a legal command (spec/30_encoding.md R69). -/
theorem push_wellFormed {k : BitVec 3} (hk : k.toNat ≤ 4) : (Instr.push k).WellFormed :=
  decide_eq_true hk

namespace Machine

/-! Reads (spec/20_memory.md R44). -/

/-- No register shows the answers given so far. -/
theorem readRegister_reads (idx : RegIndex) (s : State) (r : List Word) :
    readRegister idx { s with reads := r } = readRegister idx s := rfl

/-! Writes that store (spec/20_memory.md R45). -/

theorem serve_write_data (v : Word) (s : State) : serve (.write 1#4 v) s = .next { s with data := v } := rfl

theorem serve_write_seedLo (v : Word) (s : State) :
    serve (.write 2#4 v) s = .next { s with seedLo := v } := rfl

theorem serve_write_seedHi (v : Word) (s : State) :
    serve (.write 3#4 v) s = .next { s with seedHi := v } := rfl

/-- A write anywhere but to CMD is done with its first serving: serving it again changes nothing. -/
theorem serve_write_settles {idx : RegIndex} (hidx : idx ≠ 0#4) (v : Word) (s : State) :
    ∃ t, serve (.write idx v) s = .next t ∧ serve (.write idx v) t = .next t := by
  obtain rfl | rfl | rfl | rfl | h4 := index_cases idx
  · contradiction
  · exact ⟨_, serve_write_data v s, serve_write_data v _⟩
  · exact ⟨_, serve_write_seedLo v s, serve_write_seedLo v _⟩
  · exact ⟨_, serve_write_seedHi v s, serve_write_seedHi v _⟩
  · exact ⟨s, serve_write_ignored h4 v s, serve_write_ignored h4 v s⟩

/-! The commands that absorb bytes, where they succeed. -/

/-- MIX in a session with no residue byte pending mixes DATA (spec/40_mixing_core.md R82). -/
theorem exec_mix_of_inited {s : State} (hinited : s.inited = true) (hres : s.res = []) :
    exec .mix s = .next (s.setHash (mix s.hash s.data)) := by
  simp [exec, execMix, hinited, hres]

/-- A write of MIX's word in a session with no residue byte pending mixes DATA. -/
theorem serve_write_mix {s : State} (hinited : s.inited = true) (hres : s.res = []) :
    serve (.write 0#4 0x00000002#32) s = .next (s.setHash (mix s.hash s.data)) := by
  rw [serve_write_cmd_of_command (by decide : decode 0x00000002#32 = .command .mix),
    exec_mix_of_inited hinited hres]

/-- PUSH in a session appends its bytes of DATA (spec/42_incremental_push.md R101). -/
theorem exec_push_of_inited {s : State} {k : BitVec 3} (hinited : s.inited = true) (hk : k.toNat ≤ 4) :
    exec (.push k) s = .next (appendBytes s (dataBytes s.data k.toNat)) := by
  simp [exec, execPush, hinited, hk]

/-- A write of PUSH's word in a session appends its bytes of DATA. -/
theorem serve_write_push {s : State} {k : BitVec 3} (hinited : s.inited = true) (hk : k.toNat ≤ 4) :
    serve (.write 0#4 (encode (.push k))) s = .next (appendBytes s (dataBytes s.data k.toNat)) := by
  rw [serve_write_cmd_of_command (decode_encode (push_wellFormed hk)), exec_push_of_inited hinited hk]

/-- A write of PUSH's word in a session delivers its bytes of DATA (spec/44_host_sequences.md R122). -/
theorem eventDelivers_push {s : State} {k : BitVec 3} (hinited : s.inited = true) (hk : k.toNat ≤ 4) :
    eventDelivers (.write 0#4 (encode (.push k))) s = dataBytes s.data k.toNat := by
  simp [eventDelivers, commandOf, decode_encode (push_wellFormed hk), decodedCommand, bytesDelivered,
    hinited, hk]

theorem appendBytes_inited (s : State) (b : List Byte) : (appendBytes s b).inited = s.inited := by
  rw [appendBytes_frame]; rfl

theorem appendBytes_data (s : State) (b : List Byte) : (appendBytes s b).data = s.data := by
  rw [appendBytes_frame]; rfl

/-! Appending bytes is the byte-serial push (spec/42_incremental_push.md R101, R102). -/

/-- A Word is formed of the first four bytes alone (spec/20_memory.md R47). -/
theorem wordOfBytes_append {l : List Byte} (hl : l.length = 4) (r : List Byte) :
    wordOfBytes (l ++ r) = wordOfBytes l := by
  have hleft (i : Nat) (hi : i < 4) : (l ++ r).getD i 0 = l.getD i 0 :=
    List.getD_append l r 0 i (by omega)
  simp only [wordOfBytes, hleft 0 (by decide), hleft 1 (by decide), hleft 2 (by decide),
    hleft 3 (by decide)]

/-- Bytes that do not fill the buffer stay in it. -/
theorem pushSerially_of_room (h : HashState) (res b : List Byte) (hroom : res.length + b.length < 4) :
    pushSerially h res b = (h, res ++ b) := by
  induction b generalizing res with
  | nil => simp [pushSerially]
  | cons x xs ih =>
    simp only [List.length_cons] at hroom
    rw [pushSerially, if_neg (by simp; omega), ih _ (by simp; omega), List.append_assoc]; rfl

/-- The byte-serial push of at most four bytes, in the two cases of `appendBytes_eq`. -/
theorem pushSerially_eq (h : HashState) (res b : List Byte) (hres : res.length < 4) (hb : b.length ≤ 4) :
    pushSerially h res b =
      if res.length + b.length < 4 then (h, res ++ b)
      else (mix h (wordOfBytes (res ++ b)), (res ++ b).drop 4) := by
  induction b generalizing res with
  | nil => simp [pushSerially, hres]
  | cons x xs ih =>
    have hsplit : res ++ x :: xs = (res ++ [x]) ++ xs := by simp
    simp only [List.length_cons] at hb ⊢
    rw [pushSerially, hsplit]
    by_cases hfull : (res ++ [x]).length = 4
    · have hlen : res.length + 1 = 4 := by simpa using hfull
      rw [if_pos hfull, if_neg (by omega), wordOfBytes_append hfull, ← hfull, List.drop_left,
        pushSerially_of_room _ _ _ (by simp; omega), List.nil_append]
    · have hlen : (res ++ [x]).length = res.length + 1 := by simp
      rw [if_neg hfull, ih (res ++ [x]) (by omega) (by omega), hlen, Nat.add_assoc, Nat.add_comm 1]

/-- PUSH's appending of at most four bytes writes what the byte-serial push answers. -/
theorem appendBytes_eq_pushSerially (s : State) (b : List Byte) (hres : s.res.length < 4)
    (hb : b.length ≤ 4) :
    appendBytes s b =
      (s.setHash (pushSerially s.hash s.res b).1).setRes (pushSerially s.hash s.res b).2 := by
  rw [appendBytes_eq s b hres hb, pushSerially_eq s.hash s.res b hres hb]
  split_ifs
  · rfl
  · rfl

/-- Appending two runs of at most four bytes in turn writes what the byte-serial push of both answers. -/
theorem appendBytes_appendBytes (s : State) (a b : List Byte) (hres : s.res.length < 4)
    (ha : a.length ≤ 4) (hb : b.length ≤ 4) :
    appendBytes (appendBytes s a) b =
      (s.setHash (pushSerially s.hash s.res (a ++ b)).1).setRes
        (pushSerially s.hash s.res (a ++ b)).2 := by
  have hshort := pushSerially_res_short s.hash s.res a hres
  rw [appendBytes_eq_pushSerially s a hres ha, appendBytes_eq_pushSerially _ b hshort hb,
    pushSerially_append]
  rfl

/-! The seed (spec/20_memory.md R50). -/

/-- The seed is its high half above its low half. -/
theorem seedOf_eq_append (lo hi : Word) : seedOf lo hi = hi ++ lo := by
  rw [BitVec.append_def, BitVec.shiftLeftZeroExtend_eq, BitVec.setWidth'_eq]; rfl

/-! The statements on the host's accesses. -/

/-- Settles O15: no register shows the answers, so every read of the list answers from the first state. -/
theorem readsHaveNoSideEffects : Obligations.ReadsHaveNoSideEffects := by
  unfold Obligations.ReadsHaveNoSideEffects
  intro idxs
  induction idxs with
  | nil => intro s; simp
  | cons idx idxs ih =>
    intro s
    rw [List.map_cons, serveAll_cons (serve_read idx s), ih]
    simp [readRegister_reads]

/-- Settles O16: a write outside CMD settles at once, and a repeated MIX or PUSH runs again on the state
the first one left, whose DATA and INITED are as before. -/
theorem writesActByIndex : Obligations.WritesActByIndex := by
  unfold Obligations.WritesActByIndex
  refine ⟨?_, ?_, ?_, ?_, ?_⟩
  · intro s idx v later hp
    refine ⟨?_, ?_, ?_, step_write_ignored hp, ?_⟩
    · rintro rfl
      rw [step_eq_serve hp, serve_write_data]; rfl
    · rintro rfl
      rw [step_eq_serve hp, serve_write_seedLo]; rfl
    · rintro rfl
      rw [step_eq_serve hp, serve_write_seedHi]; rfl
    · rintro i rfl hd
      rw [step_eq_serve hp, serve_write_cmd_of_command hd]; rfl
  · intro s idx v hidx
    obtain ⟨t, hfirst, hagain⟩ := serve_write_settles hidx v s
    rw [serveAll_cons hfirst, serveAll_cons hfirst, serveAll_cons hagain]
  · intro s hinited hres
    have hagain := serve_write_mix (s := s.setHash (mix s.hash s.data)) hinited hres
    rw [serveAll_cons (serve_write_mix hinited hres), serveAll_cons hagain, serveAll_nil]
    rfl
  · intro s k hinited hk
    have hinited' := (appendBytes_inited s (dataBytes s.data k.toNat)).trans hinited
    rw [streamDelivered_cons (serve_write_push hinited hk), eventDelivers_push hinited hk,
      streamDelivered_cons (serve_write_push hinited' hk), eventDelivers_push hinited' hk,
      appendBytes_data, streamDelivered_nil, List.append_nil]
  · intro s k hinited hk hres
    have hinited' := (appendBytes_inited s (dataBytes s.data k.toNat)).trans hinited
    have hlen : (dataBytes s.data k.toNat).length ≤ 4 := by rwa [dataBytes_length]
    rw [serveAll_cons (serve_write_push hinited hk), serveAll_cons (serve_write_push hinited' hk),
      appendBytes_data, appendBytes_appendBytes s _ _ hres hlen hlen, serveAll_nil]
    exact ⟨_, rfl, rfl, rfl⟩

/-- Settles O41: the seed is SEED_HI above SEED_LO, and INIT takes it apart again. -/
theorem seedIsSplitLowHalfFirst : Obligations.SeedIsSplitLowHalfFirst := by
  unfold Obligations.SeedIsSplitLowHalfFirst
  refine ⟨?_, ?_, by decide⟩
  · intro lo hi
    refine ⟨?_, ?_, seedState_seedOf lo hi⟩
    · rw [seedOf_eq_append]; exact BitVec.extractLsb'_append_eq_right
    · rw [seedOf_eq_append]; exact BitVec.extractLsb'_append_eq_left
  · intro s t h
    rw [exec, execInit_next] at h
    cases h
    exact ⟨rfl, rfl⟩

end Machine
end Sys2Proof
end

section
/-!
PROOFS. The opcode map (spec/30_encoding.md sections 2 to 4): which words decode to a command, to E_COUNT
and to E_ILLEGAL, the PUSH row's mask, and the statements on them (O2, O3, O21, O22).
-/

namespace Sys2Proof

/-! The decoder's three answers, each as a condition on the word. -/

/-- The decoder answers a command exactly for that command's word (spec/30_encoding.md R62, R65). -/
theorem decode_eq_command_iff {w : Word} {i : Instr} :
    decode w = .command i ↔ i.WellFormed ∧ w = encode i := by
  refine ⟨encode_of_decode, ?_⟩
  rintro ⟨hwf, rfl⟩
  exact decode_encode hwf

/-- E_ILLEGAL answers exactly the words with an illegal field (spec/30_encoding.md R66, R67, R68). -/
theorem decode_eq_illegal_iff {w : Word} : decode w = .error .eIllegal ↔ IllegalFields w := by
  obtain ⟨hd, hill⟩ | ⟨hd, hlegal, -⟩ | ⟨i, hd, hwf, rfl⟩ := decode_cases w
  · simp [hd, hill]
  · simp [hd, hlegal]
  · simp [hd, not_illegalFields_encode hwf]

/-- A PUSH word is known by its fields, CNT being its count (spec/30_encoding.md R61, R62). -/
theorem eq_encode_push_iff {w : Word} {k : BitVec 3} :
    w = encode (.push k) ↔
      opField w = 3#4 ∧ rsv0Field w = 0#4 ∧ cntField w = k ∧ rsv1Field w = 0#21 := by
  obtain ⟨kop, krsv0, kcnt, krsv1⟩ := push_fields k
  constructor
  · rintro rfl
    exact push_fields k
  · rintro ⟨hop, hrsv0, hcnt, hrsv1⟩
    exact word_eq_of_fields (hop.trans kop.symm) (hrsv0.trans krsv0.symm) (hcnt.trans kcnt.symm)
      (hrsv1.trans krsv1.symm)

/-- A PUSH word with a count above four decodes to E_COUNT (spec/30_encoding.md R69). -/
theorem decode_encode_push_of_gt {k : BitVec 3} (hk : 4 < k.toNat) :
    decode (encode (.push k)) = .error .eCount := by
  obtain ⟨hop, hrsv0, hcnt, hrsv1⟩ := push_fields k
  simp [decode, hop, hrsv0, hcnt, hrsv1, hk]

/-- E_COUNT answers exactly the PUSH words with a count above four (spec/30_encoding.md R69). -/
theorem decode_eq_count_iff {w : Word} :
    decode w = .error .eCount ↔ ∃ k, 4 < k.toNat ∧ w = encode (.push k) := by
  constructor
  · intro h
    obtain ⟨hd, -⟩ | ⟨-, hlegal, hop, hcnt⟩ | ⟨i, hd, -⟩ := decode_cases w
    · rw [h] at hd; contradiction
    · obtain ⟨hrsv0, hrsv1⟩ : rsv0Field w = 0#4 ∧ rsv1Field w = 0#21 := by
        unfold IllegalFields at hlegal; tauto
      exact ⟨_, hcnt, eq_encode_push_iff.mpr ⟨hop, hrsv0, rfl, hrsv1⟩⟩
    · rw [h] at hd; contradiction
  · rintro ⟨k, hk, rfl⟩
    exact decode_encode_push_of_gt hk

/-- A word that decodes to no command and not to E_COUNT decodes to E_ILLEGAL (spec/30_encoding.md R70). -/
theorem decode_eq_illegal_iff_not {w : Word} :
    decode w = .error .eIllegal ↔ ¬ ((∃ i, decode w = .command i) ∨ decode w = .error .eCount) := by
  obtain ⟨hd, -⟩ | ⟨hd, -⟩ | ⟨i, hd, -⟩ := decode_cases w <;> simp [hd]

/-! The ten commands and the three E_COUNT words, as lists (spec/30_encoding.md R70). -/

/-- The legal commands, a PUSH counted once for each number of bytes. -/
def legalCommands : List Instr :=
  [.nop, .init, .mix, .finish, .clrerr, .push 0#3, .push 1#3, .push 2#3, .push 3#3, .push 4#3]

/-- The PUSHes of more than four bytes. -/
def longPushes : List Instr := [.push 5#3, .push 6#3, .push 7#3]

theorem mem_legalCommands (i : Instr) : i ∈ legalCommands ↔ i.WellFormed := by
  cases i with
  | push k => revert k; decide
  | nop | init | mix | finish | clrerr => decide

theorem push_mem_longPushes (k : BitVec 3) : .push k ∈ longPushes ↔ 4 < k.toNat := by
  revert k; decide

/-- The words of the legal commands are those that decode to a command. -/
theorem mem_words_legalCommands {w : Word} :
    w ∈ legalCommands.map encode ↔ ∃ i, decode w = .command i := by
  simp only [List.mem_map, mem_legalCommands, decode_eq_command_iff, eq_comm]

/-- The words of the long PUSHes are those that decode to E_COUNT. -/
theorem mem_words_longPushes {w : Word} :
    w ∈ longPushes.map encode ↔ decode w = .error .eCount := by
  rw [decode_eq_count_iff, List.mem_map]
  constructor
  · rintro ⟨i, hi, rfl⟩
    obtain ⟨k, rfl⟩ : ∃ k, i = .push k := by
      simp only [longPushes, List.mem_cons, List.not_mem_nil, or_false] at hi
      obtain rfl | rfl | rfl := hi <;> exact ⟨_, rfl⟩
    exact ⟨k, (push_mem_longPushes k).mp hi, rfl⟩
  · rintro ⟨k, hk, rfl⟩
    exact ⟨.push k, (push_mem_longPushes k).mpr hk, rfl⟩

/-- Settles O2: the three answers exclude each other, and the first two are given by
lists of words, which `encode` evaluates to the statement's. -/
theorem legalWordsAreExactlyTen : Obligations.LegalWordsAreExactlyTen := by
  unfold Obligations.LegalWordsAreExactlyTen
  intro w
  refine ⟨mem_words_legalCommands.symm, mem_words_longPushes.symm, ?_⟩
  rw [decode_eq_illegal_iff_not, ← mem_words_legalCommands, ← mem_words_longPushes, ← List.mem_append]
  rfl

/-! The PUSH row of the opcode map (spec/30_encoding.md R62). -/

/-- The PUSH row's mask keeps OP and the reserved fields and clears CNT, so the words that match the row
are the PUSH words of any count. -/
theorem push_mask_iff {w : Word} :
    w &&& 0xFFFFF8FF#32 = 0x00000003#32 ↔ ∃ k, w = encode (.push k) := by
  constructor
  · intro h
    have masked (start len : Nat) : w.extractLsb' start len &&& (0xFFFFF8FF#32).extractLsb' start len =
        (0x00000003#32).extractLsb' start len := by rw [← BitVec.extractLsb'_and, h]
    refine ⟨_, eq_encode_push_iff.mpr ⟨?_, ?_, rfl, ?_⟩⟩
    · exact BitVec.and_allOnes.symm.trans (masked 0 4)
    · exact BitVec.and_allOnes.symm.trans (masked 4 4)
    · exact BitVec.and_allOnes.symm.trans (masked 11 21)
  · rintro ⟨k, rfl⟩
    revert k; decide

/-- A PUSH word of any count decodes to that PUSH or to E_COUNT (spec/30_encoding.md R62, R69). -/
theorem decode_push_or_count_iff {w : Word} :
    (decode w = .error .eCount ∨ ∃ k, decode w = .command (.push k)) ↔ ∃ k, w = encode (.push k) := by
  constructor
  · rintro (hcount | ⟨k, hpush⟩)
    · obtain ⟨k, -, hw⟩ := decode_eq_count_iff.mp hcount
      exact ⟨k, hw⟩
    · exact ⟨k, (decode_eq_command_iff.mp hpush).2⟩
  · rintro ⟨k, rfl⟩
    rcases Nat.lt_or_ge 4 k.toNat with hk | hk
    · exact .inl (decode_encode_push_of_gt hk)
    · exact .inr ⟨k, decode_encode (push_wellFormed hk)⟩

/-- PUSH's word is its opcode with the count in CNT (spec/30_encoding.md R62). -/
theorem encode_push (k : BitVec 3) : encode (.push k) = 0x00000003#32 ||| (k.setWidth 32 <<< 8) := rfl

/-- PUSH is decoded exactly from its word, with at most four bytes (spec/30_encoding.md R62, R69). -/
theorem decode_eq_push_iff {w : Word} {k : BitVec 3} :
    decode w = .command (.push k) ↔ k.toNat ≤ 4 ∧ w = encode (.push k) := by
  rw [decode_eq_command_iff, Instr.WellFormed, Instr.wellFormed, decide_eq_true_iff]

/-- A legal command is decoded from its word and no other (spec/30_encoding.md R62). -/
theorem decode_eq_command_iff_word {w v : Word} {i : Instr} (hwf : i.WellFormed) (hv : encode i = v) :
    decode w = .command i ↔ w = v := by
  rw [decode_eq_command_iff, hv, and_iff_right hwf]

/-- Settles O3: each row of the opcode map is the decoder's condition for its command. -/
theorem opcodeMapMatchValues : Obligations.OpcodeMapMatchValues := by
  unfold Obligations.OpcodeMapMatchValues
  intro w
  refine ⟨decode_eq_command_iff_word rfl (by decide), decode_eq_command_iff_word rfl (by decide),
    decode_eq_command_iff_word rfl (by decide), decode_eq_command_iff_word rfl (by decide),
    decode_eq_command_iff_word rfl (by decide), push_mask_iff.trans decode_push_or_count_iff.symm,
    ?_, ?_, ?_⟩
  · intro k
    rw [← encode_push, decode_eq_push_iff]
  · intro k hk hw
    rw [← encode_push] at hw
    exact decode_eq_count_iff.mpr ⟨k, hk, hw⟩
  · intro hop
    exact decode_eq_illegal_iff.mpr (.inr (.inr (.inl hop)))

namespace Machine

/-- Settles O21: each cause is an illegal field of the word. -/
theorem illegalWordsRecordIllegal : Obligations.IllegalWordsRecordIllegal := by
  unfold Obligations.IllegalWordsRecordIllegal
  intro s w later hp hcause
  have hill : IllegalFields w := by
    obtain hop | hrsv0 | hrsv1 | hcnt := hcause
    · exact .inr (.inr (.inl hop))
    · exact .inl hrsv0
    · exact .inr (.inl hrsv1)
    · exact .inr (.inr (.inr hcnt))
  obtain ⟨-, hstep, -⟩ := stepRunsDecodedCommand s later
  exact hstep w hp (decode_eq_illegal_iff.mpr hill)

/-- Settles O22: the fields make up a PUSH word with a count above four. -/
theorem countAboveFourRecordsCount : Obligations.CountAboveFourRecordsCount := by
  unfold Obligations.CountAboveFourRecordsCount
  intro s w later hp hop hrsv0 hrsv1 hcnt
  have hw : w = encode (.push (cntField w)) := eq_encode_push_iff.mpr ⟨hop, hrsv0, rfl, hrsv1⟩
  obtain ⟨-, -, hstep, -⟩ := stepRunsDecodedCommand s later
  exact hstep w hp (decode_eq_count_iff.mpr ⟨cntField w, hcnt, hw⟩)

end Machine
end Sys2Proof
end

section
/-!
PROOFS. The mixing core (spec/40_mixing_core.md): `mix` as six invertible assignments, MIX in each state it
can meet, and the statements on them (O27, O35, O36, O37).
-/

namespace Sys2Proof.Machine

/-! The rotation (spec/00_scope.md R9). -/

/-- The low `r` bits of a rotation come from the top of the word, the others from `r` bits below. -/
theorem getLsbD_rotl (a : Word) {r i : Nat} (hr : r < 32) (hi : i < 32) :
    (rotl a r).getLsbD i = if i < r then a.getLsbD (32 - r + i) else a.getLsbD (i - r) := by
  have hrotl : rotl a r = a.rotateLeft r := by rw [BitVec.rotateLeft_def, Nat.mod_eq_of_lt hr, rotl]
  rw [hrotl, BitVec.getLsbD_rotateLeft, Nat.mod_eq_of_lt hr]
  split_ifs with hlow
  · simp [hlow]
  · simp [hlow, hi]

/-- A rotation and the rotation by the rest of the word's width make up a whole turn. -/
theorem rotl_rotl_rest (a : Word) {r : Nat} (hpos : 0 < r) (hr : r < 32) :
    rotl (rotl a r) (32 - r) = a := by
  ext i hi
  rw [← BitVec.getLsbD_eq_getElem, ← BitVec.getLsbD_eq_getElem, getLsbD_rotl _ (by omega) hi]
  split_ifs with hlow
  · rw [getLsbD_rotl a hr (by omega), if_neg (by omega)]
    congr 1; omega
  · rw [getLsbD_rotl a hr (by omega), if_pos (by omega)]
    congr 1; omega

theorem rotl_bijective {r : Nat} (hpos : 0 < r) (hr : r < 32) :
    Function.Bijective (fun a => rotl a r) := by
  refine Function.bijective_iff_has_inverse.mpr ⟨fun a => rotl a (32 - r), ?_, ?_⟩
  · intro a
    exact rotl_rotl_rest a hpos hr
  · intro a
    have hturn := rotl_rotl_rest a (r := 32 - r) (by omega) (by omega)
    rwa [Nat.sub_sub_self hr.le] at hturn

theorem xor_right_bijective (b : Word) : Function.Bijective (fun a : Word => a ^^^ b) :=
  Function.Involutive.bijective fun a => xor_cancel_right a b

/-! The assignments of `mix` (spec/40_mixing_core.md R80, R81). -/

/-- `lo <- f lo hi`. -/
def assignLo (f : Word → Word → Word) (h : HashState) : HashState := ⟨f h.lo h.hi, h.hi⟩

/-- `hi <- f hi lo`. -/
def assignHi (f : Word → Word → Word) (h : HashState) : HashState := ⟨h.lo, f h.hi h.lo⟩

/-- An assignment to `lo` is invertible when it is so for each value of `hi`. -/
theorem assignLo_bijective {f : Word → Word → Word} (hf : ∀ b, Function.Bijective (fun a => f a b)) :
    Function.Bijective (assignLo f) := by
  constructor
  · rintro ⟨lo, hi⟩ ⟨lo', hi'⟩ heq
    obtain ⟨hlo, rfl⟩ : f lo hi = f lo' hi' ∧ hi = hi' := HashState.mk.inj heq
    obtain rfl : lo = lo' := (hf hi).injective hlo
    rfl
  · rintro ⟨lo, hi⟩
    obtain ⟨a, rfl⟩ := (hf hi).surjective lo
    exact ⟨⟨a, hi⟩, rfl⟩

/-- The halves exchanged. -/
def swapHalves (h : HashState) : HashState := ⟨h.hi, h.lo⟩

theorem swapHalves_bijective : Function.Bijective swapHalves :=
  Function.Involutive.bijective fun _ => rfl

/-- An assignment to `hi` is one to `lo` between two exchanges. -/
theorem assignHi_eq_comp (f : Word → Word → Word) :
    assignHi f = swapHalves ∘ assignLo f ∘ swapHalves := rfl

theorem assignHi_bijective {f : Word → Word → Word} (hf : ∀ b, Function.Bijective (fun a => f a b)) :
    Function.Bijective (assignHi f) := by
  rw [assignHi_eq_comp]
  exact swapHalves_bijective.comp ((assignLo_bijective hf).comp swapHalves_bijective)

/-- `mix` is its six assignments, one after the other. -/
theorem mix_eq_comp (v : Word) :
    (fun h => mix h v) =
      assignHi (fun hi _ => rotl hi 19) ∘ assignLo (fun lo hi => rotl lo 27 + hi) ∘
      assignHi (fun hi lo => rotl hi 9 ^^^ lo) ∘ assignLo (fun lo hi => rotl lo 20 + hi) ∘
      assignHi (fun hi lo => hi ^^^ lo) ∘ assignLo (fun lo _ => lo + v) := rfl

/-- Each assignment is invertible, so `mix` is (spec/40_mixing_core.md R81). -/
theorem mix_bijective (v : Word) : Function.Bijective (fun h => mix h v) := by
  have hrotAdd {r : Nat} (hpos : 0 < r) (hr : r < 32) (b : Word) :
      Function.Bijective (fun a => rotl a r + b) :=
    (AddGroup.addRight_bijective b).comp (rotl_bijective hpos hr)
  have hrotXor (b : Word) : Function.Bijective (fun a => rotl a 9 ^^^ b) :=
    (xor_right_bijective b).comp (rotl_bijective (by decide) (by decide))
  rw [mix_eq_comp]
  exact (assignHi_bijective fun _ => rotl_bijective (by decide) (by decide)).comp <|
    (assignLo_bijective (hrotAdd (by decide) (by decide))).comp <|
    (assignHi_bijective hrotXor).comp <|
    (assignLo_bijective (hrotAdd (by decide) (by decide))).comp <|
    (assignHi_bijective xor_right_bijective).comp <|
    assignLo_bijective fun _ => AddGroup.addRight_bijective v

/-- The zero Word leaves the zero state as it is. -/
theorem mix_zero_zero : mix ⟨0#32, 0#32⟩ 0#32 = ⟨0#32, 0#32⟩ := by decide

/-! MIX in each state it can meet (spec/40_mixing_core.md R82), and the Word of DATA's lanes. -/

theorem exec_mix_before_init {s : State} (hinited : s.inited = false) :
    exec .mix s = .next (errorRecorded 3#4 s) :=
  exec_of_stateFailure rfl (if_pos hinited)

theorem exec_mix_of_residue {s : State} (hinited : s.inited = true) (hres : s.res ≠ []) :
    exec .mix s = .next (errorRecorded 4#4 s) :=
  exec_of_stateFailure rfl (by simp [stateFailure, hinited, hres])

/-- The four lanes of a Word form the Word again (spec/20_memory.md R47, R48). -/
theorem wordOfBytes_dataBytes (v : Word) : wordOfBytes (dataBytes v 4) = v := by
  change le32 (byteLane v 0) (byteLane v 1) (byteLane v 2) (byteLane v 3) = v
  ext j hj
  rw [← BitVec.getLsbD_eq_getElem, getLsbD_le32]
  simp only [byteLane, BitVec.getLsbD_extractLsb']
  split_ifs with h8 h16 h24 <;>
    simp (disch := omega) [decide_eq_true, BitVec.getLsbD_eq_getElem]

/-- Appending DATA's four lanes to an empty residue mixes DATA (spec/40_mixing_core.md R83). -/
theorem appendBytes_word {s : State} (hres : s.res = []) (v : Word) :
    appendBytes s (dataBytes v 4) = s.setHash (mix s.hash v) := by
  rw [appendBytes_eq s _ (by simp [hres]) (by simp), if_neg (by simp), hres, List.nil_append,
    wordOfBytes_dataBytes, List.drop_of_length_le (by simp)]
  cases s
  cases hres
  rfl

/-! The statements on the mixing core. -/

/-- Settles O35: PUSH 4 appends the lanes of DATA, which form DATA again, to the empty residue. -/
theorem mixEqualsPushFour : Obligations.MixEqualsPushFour := by
  unfold Obligations.MixEqualsPushFour
  refine ⟨?_, ?_⟩
  · intro s hinited hres
    have hmix := exec_mix_of_inited hinited hres
    refine ⟨⟨_, hmix⟩, ?_, if_pos ⟨hinited, hres⟩⟩
    calc exec .mix s
        = .next (s.setHash (mix s.hash s.data)) := hmix
      _ = .next (appendBytes s (dataBytes s.data 4)) := by rw [appendBytes_word hres]
      _ = exec (.push 4#3) s := (exec_push_of_inited (k := 4#3) hinited (by decide)).symm
  · intro s hinited hres
    exact ⟨exec_mix_of_residue hinited hres, if_neg fun hruns => hres hruns.2⟩

/-- Settles O37: the zero state by induction on the number of Words, and `mix` as a composition of
invertible assignments. -/
theorem mixCornerCases : Obligations.MixCornerCases := by
  unfold Obligations.MixCornerCases
  refine ⟨?_, by decide, ?_, mix_bijective⟩
  · intro n
    induction n with
    | zero => rfl
    | succ n ih => rw [Nat.repeat, ih, mix_zero_zero]
  · intro s hinited hres
    exact ⟨_, exec_mix_of_inited hinited hres⟩

/-- Settles O27: MIX's word, and MIX in each state it can meet. -/
theorem mixAbsorbsDataWord : Obligations.MixAbsorbsDataWord := by
  unfold Obligations.MixAbsorbsDataWord
  refine ⟨fun w => decode_eq_command_iff_word rfl (by decide), ?_, ?_, ?_⟩
  · intro s hinited hres
    exact exec_mix_of_inited hinited hres
  · intro s hinited
    exact exec_mix_before_init hinited
  · intro s hinited hres
    exact exec_mix_of_residue hinited hres

/-- Settles O36: `mix` by its definition, each rotation by R9's. -/
theorem mixIsTheSixAssignments : Obligations.MixIsTheSixAssignments := by
  unfold Obligations.MixIsTheSixAssignments
  intro lo hi v
  simp only [mix, rotl, Nat.reduceSub]

end Sys2Proof.Machine
end

section
/-!
PROOFS. Finalization (spec/41_finalization.md): the lanes of the padding word, FINISH in each state it can
meet, what a session's stream state depends on, and the statements on them (O32, O33, O38, O39).
-/

namespace Sys2Proof.Machine

/-! The padding word, lane by lane (spec/41_finalization.md R90, R91). -/

/-- Shifting a byte in from below makes it lane 0. -/
theorem byteLane_shiftIn_zero (acc : Word) (b : Byte) :
    byteLane ((acc <<< 8) ||| b.setWidth 32) 0 = b := by
  ext j hj
  have hwidth : j < 32 := by omega
  simp [byteLane, hj, hwidth]

/-- Shifting a byte in from below moves every lane up by one. -/
theorem byteLane_shiftIn_succ (acc : Word) (b : Byte) {i : Nat} (hi : i + 1 < 4) :
    byteLane ((acc <<< 8) ||| b.setWidth 32) (i + 1) = byteLane acc i := by
  ext j hj
  have hlow : ¬ 8 * (i + 1) + j < 8 := by omega
  have hwidth : 8 * (i + 1) + j < 32 := by omega
  have hlane : 8 * (i + 1) + j - 8 = 8 * i + j := by omega
  have habove : b.getLsbD (8 * (i + 1) + j) = false := BitVec.getLsbD_of_ge _ _ (by omega)
  simp [byteLane, hlow, hwidth, hlane, habove, BitVec.getLsbD_eq_getElem (show 8 * i + j < 32 by omega)]

/-- The four lanes of the padding word: the bytes, the sentinel above them, and 0 above that. -/
theorem byteLane_finalWord (r : List Byte) {i : Nat} (hi : i < 4) :
    byteLane (finalWord r) i =
      if h : i < r.length then r[i] else if i = r.length then 0x80#8 else 0x00#8 := by
  induction r generalizing i with
  | nil => revert i; decide
  | cons b r ih =>
    rw [finalWord, List.foldr_cons, ← finalWord]
    cases i with
    | zero => simpa using byteLane_shiftIn_zero (finalWord r) b
    | succ i => simpa [byteLane_shiftIn_succ (finalWord r) b hi] using ih (by omega)

/-- Settles O38: the fold from the left over the reverse, and the lanes by induction on the bytes. -/
theorem paddingWordPlacesSentinel : Obligations.PaddingWordPlacesSentinel := by
  unfold Obligations.PaddingWordPlacesSentinel
  intro r _
  exact ⟨List.foldl_reverse.symm, fun i hi => byteLane_finalWord r hi⟩

/-- Settles O39: `finalize` by its definition. -/
theorem finalizeIsTwoMixes : Obligations.FinalizeIsTwoMixes := by
  unfold Obligations.FinalizeIsTwoMixes
  intro lo hi r
  rfl

/-! FINISH in each state it can meet (spec/41_finalization.md R93). -/

theorem exec_finish_of_inited {s : State} (hinited : s.inited = true) :
    exec .finish s = .next (s.setResult (finalize s.hash s.res)) := by
  simp [exec, execFinish, hinited]

theorem exec_finish_before_init {s : State} (hinited : s.inited = false) :
    exec .finish s = .next (errorRecorded 3#4 s) :=
  exec_of_stateFailure rfl (if_pos hinited)

/-- Settles O32: FINISH's word, and FINISH in each state it can meet. -/
theorem finishWritesOnlyResult : Obligations.FinishWritesOnlyResult := by
  unfold Obligations.FinishWritesOnlyResult
  refine ⟨fun w => decode_eq_command_iff_word rfl (by decide), ?_, ?_⟩
  · intro s hinited
    exact exec_finish_of_inited hinited
  · intro s hinited
    exact exec_finish_before_init hinited

/-! Removing a FINISH (spec/41_finalization.md R95, first sentence): FINISH writes only fields that no later
change of `lo`, `hi` or `res` depends on. -/

/-- The two states agree on every field a later value of `lo`, `hi` or `res` can depend on: all but the
error state, `result`, and what the bus holds and has answered. -/
structure SameStream (s t : State) : Prop where
  hash : s.hash = t.hash
  res : s.res = t.res
  inited : s.inited = t.inited
  data : s.data = t.data
  seedLo : s.seedLo = t.seedLo
  seedHi : s.seedHi = t.seedHi

/-- Commands that fail leave two such states alike, whatever error each of them raises. -/
theorem SameStream.raiseError_errorRecorded {s t : State} (hst : SameStream s t) (c : ErrorCode)
    (d : BitVec 4) : SameStream (raiseError c s) (errorRecorded d t) := by
  rw [raiseError_eq]
  exact ⟨hst.hash, hst.res, hst.inited, hst.data, hst.seedLo, hst.seedHi⟩

/-- The same bytes appended to two such states leave them alike. -/
theorem SameStream.appendBytes {s t : State} (hst : SameStream s t) (b : List Byte) :
    SameStream (appendBytes s b) (appendBytes t b) := by
  obtain ⟨hhash, hres⟩ := appendBytes_congr hst.hash hst.res b
  rw [appendBytes_frame s, appendBytes_frame t]
  exact ⟨hhash, hres, hst.inited, hst.data, hst.seedLo, hst.seedHi⟩

/-- A command that runs in one of two such states runs in the other, and leaves them alike. -/
theorem exec_sameStream {i : Instr} {s s' t : State} (hst : SameStream s t) (h : exec i s = .next s') :
    ∃ t', exec i t = .next t' ∧ SameStream s' t' := by
  cases i with
  | nop => cases h; exact ⟨_, rfl, hst⟩
  | init =>
    rw [exec, execInit_next, hst.seedLo, hst.seedHi] at h
    cases h
    exact ⟨_, execInit_next t, rfl, rfl, rfl, hst.data, hst.seedLo, hst.seedHi⟩
  | clrerr =>
    cases h
    exact ⟨_, rfl, hst.hash, hst.res, hst.inited, hst.data, hst.seedLo, hst.seedHi⟩
  | mix =>
    obtain ⟨hinited, rfl⟩ | ⟨hinited, hres, rfl⟩ | ⟨hinited, hres, rfl⟩ := execMix_cases h
    · rw [hst.inited] at hinited
      exact ⟨_, exec_mix_before_init hinited, hst.raiseError_errorRecorded _ _⟩
    · rw [hst.inited] at hinited
      rw [hst.res] at hres
      exact ⟨_, exec_mix_of_residue hinited hres, hst.raiseError_errorRecorded _ _⟩
    · rw [hst.inited] at hinited
      rw [hst.res] at hres
      refine ⟨_, exec_mix_of_inited hinited hres, ?_⟩
      rw [hst.hash, hst.data]
      exact ⟨rfl, hst.res, hst.inited, hst.data, hst.seedLo, hst.seedHi⟩
  | push k =>
    obtain ⟨hk, rfl⟩ | ⟨hk, hinited, rfl⟩ | ⟨hk, hinited, rfl⟩ := execPush_cases h
    · have ht : exec (.push k) t = .next (errorRecorded 2#4 t) := by
        rw [exec, execPush, if_pos hk, raiseError_eq_errorRecorded]; rfl
      exact ⟨_, ht, hst.raiseError_errorRecorded _ _⟩
    · rw [hst.inited] at hinited
      exact ⟨_, exec_of_stateFailure (push_wellFormed hk) (if_pos hinited),
        hst.raiseError_errorRecorded _ _⟩
    · rw [hst.inited] at hinited
      rw [hst.data]
      exact ⟨_, exec_push_of_inited hinited hk, hst.appendBytes _⟩
  | finish =>
    obtain ⟨hinited, rfl⟩ | ⟨hinited, rfl⟩ := execFinish_cases h
    · rw [hst.inited] at hinited
      exact ⟨_, exec_finish_before_init hinited, hst.raiseError_errorRecorded _ _⟩
    · rw [hst.inited] at hinited
      exact ⟨_, exec_finish_of_inited hinited, hst.hash, hst.res, hst.inited, hst.data, hst.seedLo,
        hst.seedHi⟩

/-- An access served in one of two such states is served in the other, and leaves them alike. -/
theorem serve_sameStream {e : BusEvent} {s s' t : State} (hst : SameStream s t)
    (h : serve e s = .next s') : ∃ t', serve e t = .next t' ∧ SameStream s' t' := by
  have ⟨hhash, hres, hinited, hdata, hseedLo, hseedHi⟩ := hst
  obtain ⟨rfl, rfl⟩ | ⟨idx, rfl, rfl⟩ | ⟨v, rfl, rfl⟩ | ⟨v, rfl, rfl⟩ | ⟨v, rfl, rfl⟩ |
    ⟨idx, v, rfl, h4, rfl⟩ | ⟨w, i, rfl, hd, hexec⟩ | ⟨w, c, rfl, hd, rfl⟩ := serve_cases h
  · exact ⟨platformReset t, rfl, rfl, rfl, rfl, rfl, rfl, rfl⟩
  · exact ⟨_, serve_read idx t, hhash, hres, hinited, hdata, hseedLo, hseedHi⟩
  · exact ⟨_, serve_write_data v t, hhash, hres, hinited, rfl, hseedLo, hseedHi⟩
  · exact ⟨_, serve_write_seedLo v t, hhash, hres, hinited, hdata, rfl, hseedHi⟩
  · exact ⟨_, serve_write_seedHi v t, hhash, hres, hinited, hdata, hseedLo, rfl⟩
  · exact ⟨t, serve_write_ignored h4 v t, hst⟩
  · rw [serve_write_cmd_of_command hd]
    exact exec_sameStream hst hexec
  · exact ⟨_, serve_write_cmd_of_error hd t, hst.raiseError_errorRecorded _ _⟩

/-- A list of accesses is served to its end only if its first access is served. -/
theorem serveAll_cons_some {e : BusEvent} {es : List BusEvent} {s u : State}
    (h : serveAll (e :: es) s = some u) : ∃ t, serve e s = .next t ∧ serveAll es t = some u := by
  cases hs : serve e s with
  | next t => exact ⟨t, rfl, serveAll_cons hs es ▸ h⟩
  | fault r => simp [serveAll, hs] at h
  | refused r => simp [serveAll, hs] at h

/-- A list of accesses served from one of two such states is served from the other, and leaves them
alike. -/
theorem serveAll_sameStream {es : List BusEvent} {s s' t : State} (hst : SameStream s t)
    (h : serveAll es s = some s') : ∃ t', serveAll es t = some t' ∧ SameStream s' t' := by
  induction es generalizing s t with
  | nil => cases h; exact ⟨t, rfl, hst⟩
  | cons e es ih =>
    obtain ⟨s₁, hs₁, hs'⟩ := serveAll_cons_some h
    obtain ⟨t₁, ht₁, hst₁⟩ := serve_sameStream hst hs₁
    rw [serveAll_cons ht₁]
    exact ih hst₁ hs'

/-- A write of FINISH's word runs FINISH. -/
theorem serve_write_finish (s : State) : serve (.write 0#4 0x00000004#32) s = exec .finish s :=
  serve_write_cmd_of_command (by decide) s

/-- FINISH leaves the stream's fields as they are, whether it succeeds or fails. -/
theorem exec_finish_sameStream {s t : State} (h : exec .finish s = .next t) : SameStream t s := by
  obtain ⟨-, rfl⟩ | ⟨-, rfl⟩ := execFinish_cases h
  · rw [raiseError_eq]; exact ⟨rfl, rfl, rfl, rfl, rfl, rfl⟩
  · exact ⟨rfl, rfl, rfl, rfl, rfl, rfl⟩

/-- The accesses after a FINISH leave the stream's fields as they would without it. -/
theorem serveAll_remove_finish {before after : List BusEvent} {s t u : State}
    (ht : serveAll (before ++ .write 0#4 0x00000004#32 :: after) s = some t)
    (hu : serveAll (before ++ after) s = some u) : SameStream t u := by
  rw [serveAll_append] at ht hu
  obtain ⟨s₁, hs₁, hu⟩ := Option.bind_eq_some_iff.mp hu
  rw [hs₁, Option.bind_some] at ht
  obtain ⟨s₂, hfinish, ht⟩ := serveAll_cons_some ht
  rw [serve_write_finish] at hfinish
  obtain ⟨u', hu', htu⟩ := serveAll_sameStream (exec_finish_sameStream hfinish) ht
  obtain rfl : u' = u := Option.some.inj (hu'.symm.trans hu)
  exact htu

/-! A second FINISH (spec/41_finalization.md R95, second sentence): where `result` is already the finish
value, an access that neither resets, starts a session nor absorbs bytes leaves the session as it is. -/

/-- `result` is the finish value of the session. -/
structure ResultCurrent (s : State) : Prop where
  inited : s.inited = true
  result : s.result = finalize s.hash s.res

/-- The event is no reset and runs none of INIT, MIX and PUSH. -/
abbrev NeitherStartsNorAbsorbs (e : BusEvent) : Prop :=
  e ≠ .reset ∧ commandOf e ≠ some .init ∧ commandOf e ≠ some .mix ∧ ∀ k, commandOf e ≠ some (.push k)

theorem SameSession.trans {s t u : State} (hst : SameSession s t) (htu : SameSession t u) :
    SameSession s u :=
  ⟨htu.hash.trans hst.hash, htu.res.trans hst.res, htu.inited.trans hst.inited,
    htu.result.trans hst.result⟩

/-- `result` stays the finish value while the session stays as it is. -/
theorem ResultCurrent.of_sameSession {s t : State} (hs : ResultCurrent s) (hst : SameSession s t) :
    ResultCurrent t where
  inited := hst.inited.trans hs.inited
  result := by rw [hst.result, hs.result, hst.hash, hst.res]

/-- A successful FINISH makes `result` the finish value. -/
theorem resultCurrent_of_finish {s t : State} (hinited : s.inited = true) (h : exec .finish s = .next t) :
    ResultCurrent t := by
  rw [exec_finish_of_inited hinited] at h
  cases h
  exact ⟨hinited, rfl⟩

/-- A FINISH where `result` is already the finish value writes it again. -/
theorem exec_finish_sameSession {s t : State} (hs : ResultCurrent s) (h : exec .finish s = .next t) :
    SameSession s t := by
  rw [exec_finish_of_inited hs.inited] at h
  cases h
  exact ⟨rfl, rfl, rfl, hs.result.symm⟩

/-- Such an access leaves the session as it is. -/
theorem serve_sameSession {e : BusEvent} {s t : State} (hs : ResultCurrent s)
    (he : NeitherStartsNorAbsorbs e) (h : serve e s = .next t) : SameSession s t := by
  obtain ⟨hreset, hinit, hmix, hpush⟩ := he
  obtain ⟨rfl, -⟩ | ⟨-, -, hsame⟩ | ⟨w, i, rfl, hcmd, hexec⟩ := serve_cases_by_command h
  · contradiction
  · exact hsame
  · cases i with
    | nop | clrerr => cases hexec; exact ⟨rfl, rfl, rfl, rfl⟩
    | init => contradiction
    | mix => contradiction
    | push k => exact absurd hcmd (hpush k)
    | finish => exact exec_finish_sameSession hs hexec

/-- Such accesses, any number of them, leave the session as it is. -/
theorem serveAll_sameSession {es : List BusEvent} {s t : State} (hs : ResultCurrent s)
    (hes : ∀ e ∈ es, NeitherStartsNorAbsorbs e) (h : serveAll es s = some t) : SameSession s t := by
  induction es generalizing s with
  | nil => cases h; exact ⟨rfl, rfl, rfl, rfl⟩
  | cons e es ih =>
    rw [List.forall_mem_cons] at hes
    obtain ⟨s₁, hs₁, ht⟩ := serveAll_cons_some h
    have hsame : SameSession s s₁ := serve_sameSession hs hes.1 hs₁
    exact hsame.trans (ih (hs.of_sameSession hsame) hes.2 ht)

/-- Settles O33: what FINISH writes has no effect on the stream's fields, and the second FINISH is one more
access that leaves the session as the first one left it. -/
theorem finishDoesNotMutateSession : Obligations.FinishDoesNotMutateSession := by
  unfold Obligations.FinishDoesNotMutateSession
  constructor
  · intro before after s t u ht hu
    obtain ⟨hhash, hres, -, -, -, -⟩ := serveAll_remove_finish ht hu
    exact ⟨congrArg HashState.lo hhash, congrArg HashState.hi hhash, hres⟩
  · intro between s t u hinited hbetween ht hu
    have hfinish : NeitherStartsNorAbsorbs (.write 0#4 0x00000004#32) := by decide
    have hall : ∀ e ∈ between ++ [.write 0#4 0x00000004#32], NeitherStartsNorAbsorbs e :=
      List.forall_mem_append.mpr ⟨hbetween, List.forall_mem_singleton.mpr hfinish⟩
    exact (serveAll_sameSession (resultCurrent_of_finish hinited ht) hall hu).result

end Sys2Proof.Machine
end

section
/-!
PROOFS. PUSH (spec/42_incremental_push.md): what it leaves in a session as the whole Words and the remainder
of the residue and the new bytes, PUSH in each state it can meet, its independence of DATA's upper bytes,
and the statements on them (O28 to O31).
-/

namespace Sys2Proof.Machine

/-! The whole Words of a short stream and its remainder (spec/44_host_sequences.md R120, R121). -/

/-- The remainder is shorter than a Word. -/
theorem streamRemainder_length (B : List Byte) : (streamRemainder B).length = B.length % 4 := by
  rw [streamRemainder, List.length_drop]
  omega

/-- Fewer than four bytes hold no Word to mix. -/
theorem hashWords_of_short (h : HashState) {B : List Byte} (hB : B.length < 4) : hashWords h B = h := by
  rw [hashWords, Nat.div_eq_of_lt hB]; rfl

/-- Four to seven bytes hold one Word to mix, that of the first four. -/
theorem hashWords_of_oneWord (h : HashState) {B : List Byte} (hB : B.length / 4 = 1) :
    hashWords h B = mix h (wordOfBytes B) := by
  rw [hashWords, hB]; rfl

/-! Appending at most four bytes to a residue that is not full (spec/42_incremental_push.md R101, R102). -/

section
variable (s : State) (b : List Byte) (hres : s.res.length < 4) (hb : b.length ≤ 4)
include hres hb

/-- The whole Words of the residue and the new bytes are mixed, and their remainder becomes the residue. -/
theorem appendBytes_eq_stream :
    appendBytes s b =
      (s.setHash (hashWords s.hash (s.res ++ b))).setRes (streamRemainder (s.res ++ b)) := by
  rw [appendBytes_eq s b hres hb]
  split_ifs with hroom
  · have hshort : (s.res ++ b).length < 4 := by rwa [List.length_append]
    rw [hashWords_of_short _ hshort, streamRemainder, Nat.div_eq_of_lt hshort]; rfl
  · have hone : (s.res ++ b).length / 4 = 1 := by rw [List.length_append]; omega
    rw [hashWords_of_oneWord _ hone, streamRemainder, hone]

theorem appendBytes_hash : (appendBytes s b).hash = hashWords s.hash (s.res ++ b) := by
  rw [appendBytes_eq_stream s b hres hb]; rfl

theorem appendBytes_res : (appendBytes s b).res = streamRemainder (s.res ++ b) := by
  rw [appendBytes_eq_stream s b hres hb]; rfl

/-- With room left the bytes stay in the residue. -/
theorem appendBytes_of_room (hroom : s.res.length + b.length < 4) :
    appendBytes s b = s.setRes (s.res ++ b) := by
  rw [appendBytes_eq s b hres hb, if_pos hroom]

/-- The first four bytes, where there are as many, are mixed, and the others become the residue. -/
theorem appendBytes_of_word {b0 b1 b2 b3 : Byte} {rest : List Byte}
    (hword : s.res ++ b = b0 :: b1 :: b2 :: b3 :: rest) :
    appendBytes s b = (s.setHash (mix s.hash (le32 b0 b1 b2 b3))).setRes rest := by
  have hfull : s.res.length + b.length = rest.length + 4 := by
    rw [← List.length_append, hword]; rfl
  rw [appendBytes_eq s b hres hb, if_neg (by omega), hword]; rfl

end

/-- Appending no byte changes nothing (spec/42_incremental_push.md R103). -/
theorem appendBytes_nil {s : State} (hres : s.res.length < 4) : appendBytes s [] = s := by
  rw [appendBytes_of_room s [] hres (by decide) hres, List.append_nil]; rfl

/-! PUSH where it fails (spec/42_incremental_push.md R101, spec/30_encoding.md R69). -/

theorem exec_push_before_init {s : State} {k : BitVec 3} (hk : k.toNat ≤ 4) (hinited : s.inited = false) :
    exec (.push k) s = .next (errorRecorded 3#4 s) :=
  exec_of_stateFailure (push_wellFormed hk) (if_pos hinited)

theorem exec_push_of_gt {k : BitVec 3} (hk : 4 < k.toNat) (s : State) :
    exec (.push k) s = .next (errorRecorded 2#4 s) := by
  rw [exec, execPush, if_pos hk, raiseError_eq_errorRecorded]; rfl

/-! What PUSH reads of DATA (spec/42_incremental_push.md R104). -/

/-- The first `k` bytes of DATA are its bits below `8k`. -/
theorem dataBytes_congr {v w : Word} {k : Nat} (hlow : ∀ j < 8 * k, v.getLsbD j = w.getLsbD j) :
    dataBytes v k = dataBytes w k := by
  refine List.map_congr_left fun i hi => ?_
  have hik : i < k := List.mem_range.mp hi
  ext j hj
  simp only [byteLane, BitVec.getElem_extractLsb']
  exact hlow _ (by omega)

/-- Appending given bytes neither reads nor writes DATA. -/
theorem appendBytes_setData (s : State) (d : Word) (b : List Byte) :
    appendBytes (s.setData d) b = (appendBytes s b).setData d := by
  obtain ⟨hhash, hres⟩ := appendBytes_congr (State.setData_hash s d) (State.setData_res s d) b
  rw [appendBytes_frame (s.setData d) b, hhash, hres, appendBytes_frame s b]; rfl

/-- Recording an error neither reads nor writes DATA. -/
theorem errorRecorded_setData (c : BitVec 4) (s : State) (d : Word) :
    errorRecorded c (s.setData d) = (errorRecorded c s).setData d := rfl

/-- PUSH with another DATA that agrees below bit `8k` leaves what it left, but for DATA itself. -/
theorem exec_push_setData {s t : State} {k : BitVec 3} {d : Word}
    (hlow : ∀ j < 8 * k.toNat, d.getLsbD j = s.data.getLsbD j) (h : exec (.push k) s = .next t) :
    exec (.push k) (s.setData d) = .next (t.setData d) := by
  obtain ⟨hk, rfl⟩ | ⟨hk, hinited, rfl⟩ | ⟨hk, hinited, rfl⟩ := execPush_cases h
  · rw [exec_push_of_gt hk, errorRecorded_setData, raiseError_eq_errorRecorded]; rfl
  · rw [exec_push_before_init (s := s.setData d) hk hinited, errorRecorded_setData,
      raiseError_eq_errorRecorded]; rfl
  · rw [exec_push_of_inited (s := s.setData d) hinited hk, State.setData_data, dataBytes_congr hlow,
      appendBytes_setData]

/-! The statements on PUSH. -/

/-- Settles O28: PUSH's word, and PUSH in each state it can meet. -/
theorem pushAppendsDataBytes : Obligations.PushAppendsDataBytes := by
  unfold Obligations.PushAppendsDataBytes
  refine ⟨?_, ?_, ?_, ?_⟩
  · intro w k hk
    exact decode_eq_command_iff_word (push_wellFormed hk) (encode_push k)
  · intro k hk
    exact decode_encode_push_of_gt hk
  · intro s k b hinited hk hres (hb : b = dataBytes s.data k.toNat)
    have hlen : b.length = k.toNat := by rw [hb, dataBytes_length]
    rw [exec_push_of_inited hinited hk, ← hb]
    constructor
    · intro hroom
      rw [appendBytes_of_room s _ hres (by omega) (by omega)]; rfl
    · intro b0 b1 b2 b3 rest hword
      rw [appendBytes_of_word s _ hres (by omega) hword]; rfl
  · intro s k hinited hk
    exact exec_push_before_init hk hinited

/-- Settles O29: appending is the byte-serial push, and its Words and remainder are those of the residue
and the new bytes. -/
theorem pushIsByteSerial : Obligations.PushIsByteSerial := by
  unfold Obligations.PushIsByteSerial
  intro s k hinited hk hres
  have hb : (dataBytes s.data k.toNat).length ≤ 4 := by rwa [dataBytes_length]
  have htotal : (s.res ++ dataBytes s.data k.toNat).length = s.res.length + k.toNat := by
    rw [List.length_append, dataBytes_length]
  refine ⟨_, exec_push_of_inited hinited hk, ?_, ?_, by omega, ?_⟩
  · rw [appendBytes_eq_pushSerially s _ hres hb]; rfl
  · rw [appendBytes_hash s _ hres hb, hashWords, htotal]
  · rw [appendBytes_res s _ hres hb, streamRemainder_length, htotal]

/-- Settles O31: PUSH takes the same bytes of both values of DATA, and the two outcomes are the one it
answers. -/
theorem pushIgnoresDataAboveCount : Obligations.PushIgnoresDataAboveCount := by
  unfold Obligations.PushIgnoresDataAboveCount
  intro s t u k d hlow ht hu
  have hu' : exec (.push k) (s.setData d) = .next (t.setData d) := exec_push_setData hlow ht
  exact Host.Outcome.next.inj (hu.symm.trans hu')

/-- Settles O30: PUSH 0 appends no byte. -/
theorem pushZeroChangesNothing : Obligations.PushZeroChangesNothing := by
  unfold Obligations.PushZeroChangesNothing
  refine ⟨by decide, ?_, ?_⟩
  · intro s hinited hres
    calc exec (.push 0#3) s
        = .next (appendBytes s (dataBytes s.data 0)) := exec_push_of_inited hinited (by decide)
      _ = .next s := congrArg _ (appendBytes_nil hres)
  · intro s hinited
    exact exec_push_before_init (by decide) hinited

end Sys2Proof.Machine
end

section
/-!
PROOFS. The control commands NOP, INIT and CLRERR (spec/43_control.md): the words of opcode 0, the equation
of each command, which holds in every state, and the statements on them (O25, O26, O34).
-/

namespace Sys2Proof

/-- OP 0 is NOP's opcode alone (spec/30_encoding.md R62). -/
theorem opcode_eq_zero_iff {i : Instr} : opcode i = 0#4 ↔ i = .nop := by
  cases i <;> simp [opcode]

/-- A word of opcode 0 other than NOP's is illegal: it is no PUSH, so it has no count to be wrong, and no
other command has its opcode (spec/30_encoding.md R68). -/
theorem decode_of_opField_zero {w : Word} (hop : opField w = 0#4) (hw : w ≠ encode .nop) :
    decode w = .error .eIllegal := by
  obtain ⟨hd, -⟩ | ⟨-, -, hpush, -⟩ | ⟨i, -, -, rfl⟩ := decode_cases w
  · exact hd
  · rw [hop] at hpush; contradiction
  · rw [opField_encode, opcode_eq_zero_iff] at hop
    exact absurd (congrArg encode hop) hw

namespace Machine

/-! Each control command in every state. -/

/-- NOP has no effect (spec/43_control.md R110). -/
theorem exec_nop (s : State) : exec .nop s = .next s := rfl

/-- INIT takes the hash state from the seed registers, empties the residue and sets INITED
(spec/43_control.md R111). -/
theorem exec_init (s : State) :
    exec .init s = .next (((s.setHash ⟨s.seedLo, s.seedHi⟩).setRes []).setInited true) :=
  execInit_next s

/-- CLRERR clears the recorded error (spec/43_control.md R112). -/
theorem exec_clrerr (s : State) : exec .clrerr s = .next (clearError s) := rfl

/-! The statements on the control commands. -/

/-- Settles O26: INIT's word, and INIT in every state, the seed's halves being the seed registers. -/
theorem initLoadsSeedAndEmptiesResidue : Obligations.InitLoadsSeedAndEmptiesResidue := by
  unfold Obligations.InitLoadsSeedAndEmptiesResidue
  exact ⟨fun w => decode_eq_command_iff_word rfl (by decide), exec_init⟩

/-- Settles O25: NOP's word and the illegal words of opcode 0, and NOP in every state. -/
theorem nopHasNoEffect : Obligations.NopHasNoEffect := by
  unfold Obligations.NopHasNoEffect
  refine ⟨?_, exec_nop⟩
  intro w hop
  split_ifs with hw
  · exact (decode_eq_command_iff_word rfl (by decide)).mpr hw
  · exact decode_of_opField_zero hop hw

/-- Settles O34: CLRERR's word, and CLRERR in every state. -/
theorem clrerrClearsErrorState : Obligations.ClrerrClearsErrorState := by
  unfold Obligations.ClrerrClearsErrorState
  exact ⟨fun w => decode_eq_command_iff_word rfl (by decide), exec_clrerr⟩

end Machine
end Sys2Proof
end

section
/-!
PROOFS. The session and its byte stream (spec/44_host_sequences.md R120 to R122, R125): the byte-serial push
computes the reference function's Words and remainder, every access of a session appends byte by byte
what it delivers, and the statements that follow (O50, O51).
-/

namespace Sys2Proof.Machine

/-! Cutting the first Word off a stream (spec/44_host_sequences.md R121). -/

/-- Word 0 is that of the first four bytes. -/
theorem streamWord_append_zero {w : List Byte} (hw : w.length = 4) (B : List Byte) :
    streamWord (w ++ B) 0 = wordOfBytes w :=
  wordOfBytes_append hw B

/-- Word `j + 1` is Word `j` of what follows the first four bytes. -/
theorem streamWord_append_succ {w : List Byte} (hw : w.length = 4) (B : List Byte) (j : Nat) :
    streamWord (w ++ B) (j + 1) = streamWord B j := by
  have hright (i : Nat) : (w ++ B).getD (4 * (j + 1) + i) 0 = B.getD (4 * j + i) 0 := by
    rw [List.getD_append_right _ _ _ _ (by omega), hw]
    congr 1
    omega
  rw [streamWord, streamWord, hright 1, hright 2, hright 3]
  exact congrArg (le32 · _ _ _) (hright 0)

/-- A Word more at the front is a Word more to mix. -/
theorem word_append_length_div {w : List Byte} (hw : w.length = 4) (B : List Byte) :
    (w ++ B).length / 4 = B.length / 4 + 1 := by
  rw [List.length_append, hw]
  omega

/-- The first four bytes of a stream are mixed first. -/
theorem hashWords_word_append (h : HashState) {w : List Byte} (hw : w.length = 4) (B : List Byte) :
    hashWords h (w ++ B) = hashWords (mix h (wordOfBytes w)) B := by
  simp only [hashWords, word_append_length_div hw, List.range_succ_eq_map, List.foldl_cons, List.foldl_map,
    streamWord_append_zero hw, streamWord_append_succ hw]

/-- The first four bytes of a stream are no part of its remainder. -/
theorem streamRemainder_word_append {w : List Byte} (hw : w.length = 4) (B : List Byte) :
    streamRemainder (w ++ B) = streamRemainder B := by
  rw [streamRemainder, word_append_length_div hw, Nat.mul_succ, Nat.add_comm, ← hw, List.drop_append]
  simp [streamRemainder, hw]

/-- Fewer than four bytes are all remainder. -/
theorem streamRemainder_of_short {B : List Byte} (hB : B.length < 4) : streamRemainder B = B := by
  rw [streamRemainder, Nat.div_eq_of_lt hB]; rfl

/-- Pushing bytes one by one mixes the whole Words of the residue and the bytes, cut by position, and keeps
their remainder (spec/42_incremental_push.md R102, spec/44_host_sequences.md R121). -/
theorem pushSerially_eq_stream (h : HashState) (res b : List Byte) (hres : res.length < 4) :
    pushSerially h res b = (hashWords h (res ++ b), streamRemainder (res ++ b)) := by
  induction b generalizing h res with
  | nil => rw [List.append_nil, hashWords_of_short h hres, streamRemainder_of_short hres]; rfl
  | cons x xs ih =>
    have hsplit : res ++ x :: xs = (res ++ [x]) ++ xs := by simp
    rw [pushSerially, hsplit]
    split_ifs with hfull
    · rw [ih _ _ (by decide), List.nil_append, hashWords_word_append h hfull,
        streamRemainder_word_append hfull]
    · have hroom : (res ++ [x]).length < 4 := by
        rw [List.length_append, List.length_singleton] at hfull ⊢
        omega
      rw [ih _ _ hroom]

/-! Absorbing bytes: what every access of a session does with the bytes it delivers. -/

/-- `t` is in a session, its `lo`, `hi` and `res` being those of `s` with `b` appended byte by byte. -/
structure Absorbed (s : State) (b : List Byte) (t : State) : Prop where
  inited : t.inited = true
  stream : (t.hash, t.res) = pushSerially s.hash s.res b

section
variable {s t u : State} {a b : List Byte}

/-- Absorbing never fills the residue (spec/10_state.md R23). -/
theorem Absorbed.residueNotFull (h : Absorbed s b t) (hroom : ResidueNotFull s) : ResidueNotFull t := by
  have hres : t.res = (pushSerially s.hash s.res b).2 := congrArg Prod.snd h.stream
  rw [ResidueNotFull, hres]
  exact pushSerially_res_short _ _ _ hroom

/-- Absorbing two runs of bytes in turn is absorbing them as one. -/
theorem Absorbed.trans (hst : Absorbed s a t) (htu : Absorbed t b u) : Absorbed s (a ++ b) u where
  inited := htu.inited
  stream := by rw [pushSerially_append, ← hst.stream, htu.stream]

/-- What leaves the session as it is absorbs no byte. -/
theorem SameSession.absorbed (h : SameSession s t) (hinited : s.inited = true) : Absorbed s [] t where
  inited := h.inited.trans hinited
  stream := by rw [h.hash, h.res]; rfl

/-- Appending at most four bytes absorbs them. -/
theorem appendBytes_absorbed (hinited : s.inited = true) (hroom : ResidueNotFull s) (hb : b.length ≤ 4) :
    Absorbed s b (appendBytes s b) where
  inited := (appendBytes_inited s b).trans hinited
  stream := by rw [appendBytes_eq_pushSerially s b hroom hb]; rfl

/-- A command of a session, successful or not, absorbs the bytes it delivers. -/
theorem exec_absorbed {i : Instr} (hinited : s.inited = true) (hroom : ResidueNotFull s) (hi : i ≠ .init)
    (h : exec i s = .next t) : Absorbed s (bytesDelivered i s) t := by
  cases i with
  | init => contradiction
  | nop | clrerr => cases h; exact ⟨hinited, rfl⟩
  | mix =>
    obtain ⟨hnot, -⟩ | ⟨-, hres, rfl⟩ | ⟨-, hres, rfl⟩ := execMix_cases h
    · simp [hinited] at hnot
    · rw [bytesDelivered, if_neg fun hruns => hres hruns.2]
      exact (raiseError_sameSession _ s).absorbed hinited
    · rw [bytesDelivered, if_pos ⟨hinited, hres⟩, ← appendBytes_word hres]
      exact appendBytes_absorbed hinited hroom (by simp)
  | push k =>
    obtain ⟨hk, rfl⟩ | ⟨-, hnot, -⟩ | ⟨hk, -, rfl⟩ := execPush_cases h
    · rw [bytesDelivered, if_neg fun hruns => absurd hruns.2 (by omega)]
      exact (raiseError_sameSession _ s).absorbed hinited
    · simp [hinited] at hnot
    · rw [bytesDelivered, if_pos ⟨hinited, hk⟩]
      exact appendBytes_absorbed hinited hroom (by rwa [dataBytes_length])
  | finish =>
    obtain ⟨hnot, -⟩ | ⟨-, rfl⟩ := execFinish_cases h
    · simp [hinited] at hnot
    · exact ⟨hinited, rfl⟩

/-- An access that keeps the session absorbs the bytes it delivers. -/
theorem serve_absorbed {e : BusEvent} (hinited : s.inited = true) (hroom : ResidueNotFull s)
    (he : keepsSession e = true) (h : serve e s = .next t) : Absorbed s (eventDelivers e s) t := by
  obtain ⟨rfl, -⟩ | ⟨-, hnone, hsame⟩ | ⟨w, i, rfl, hcmd, hexec⟩ := serve_cases_by_command h
  · contradiction
  · rw [eventDelivers, hnone]
    exact hsame.absorbed hinited
  · have hi : i ≠ .init := by
      rintro rfl
      exact of_decide_eq_true he hcmd
    rw [eventDelivers, hcmd]
    exact exec_absorbed hinited hroom hi hexec

/-- Accesses that keep the session absorb the stream they deliver, in whatever chunks. -/
theorem serveAll_absorbed {es : List BusEvent} (hinited : s.inited = true) (hroom : ResidueNotFull s)
    (hes : ∀ e ∈ es, keepsSession e = true) (h : serveAll es s = some t) :
    Absorbed s (streamDelivered es s) t := by
  induction es generalizing s with
  | nil => cases h; exact ⟨hinited, rfl⟩
  | cons e es ih =>
    rw [List.forall_mem_cons] at hes
    obtain ⟨s₁, hs₁, ht⟩ := serveAll_cons_some h
    have hfirst : Absorbed s (eventDelivers e s) s₁ := serve_absorbed hinited hroom hes.1 hs₁
    rw [streamDelivered_cons hs₁]
    exact hfirst.trans (ih hfirst.inited (hfirst.residueNotFull hroom) hes.2 ht)

end

/-! The session invariant (spec/44_host_sequences.md R122). -/

section
variable {seed : Seed} {B b : List Byte} {s t : State}

/-- The hashing state of a session is its seed's with the stream appended byte by byte. -/
theorem sessionHolds_iff_pushSerially :
    SessionHolds seed B s ↔
      s.inited = true ∧ (s.hash, s.res) = pushSerially (seedState seed) [] B := by
  rw [pushSerially_eq_stream _ _ _ (by decide), List.nil_append, Prod.mk.injEq]

theorem SessionHolds.residueNotFull (h : SessionHolds seed B s) : ResidueNotFull s := by
  obtain ⟨-, -, hres⟩ := h
  rw [ResidueNotFull, hres, streamRemainder_length]
  exact Nat.mod_lt _ (by decide)

/-- A session's stream grows by the bytes absorbed. -/
theorem SessionHolds.absorb (hs : SessionHolds seed B s) (h : Absorbed s b t) :
    SessionHolds seed (B ++ b) t := by
  obtain ⟨-, hstream⟩ := sessionHolds_iff_pushSerially.mp hs
  refine sessionHolds_iff_pushSerially.mpr ⟨h.inited, ?_⟩
  rw [pushSerially_append, ← hstream, h.stream]

/-- An access that keeps the session adds the bytes it delivers to the session's stream. -/
theorem SessionHolds.serve {e : BusEvent} (hs : SessionHolds seed B s) (he : keepsSession e = true)
    (h : serve e s = .next t) : SessionHolds seed (B ++ eventDelivers e s) t :=
  hs.absorb (serve_absorbed hs.1 hs.residueNotFull he h)

/-- Accesses that keep the session add the stream they deliver to the session's. -/
theorem SessionHolds.serveAll {es : List BusEvent} (hs : SessionHolds seed B s)
    (hes : ∀ e ∈ es, keepsSession e = true) (h : serveAll es s = some t) :
    SessionHolds seed (B ++ streamDelivered es s) t :=
  hs.absorb (serveAll_absorbed hs.1 hs.residueNotFull hes h)

/-- INIT opens the session of its seed with the empty stream. -/
theorem sessionHolds_of_init (h : exec .init s = .next t) :
    SessionHolds (seedOf s.seedLo s.seedHi) [] t := by
  cases h
  exact ⟨rfl, rfl, rfl⟩

/-- FINISH in a session writes the reference hash of its stream (spec/44_host_sequences.md R120, R125). -/
theorem SessionHolds.exec_finish (h : SessionHolds seed B s) :
    exec .finish s = .next (s.setResult (marvin32 B seed)) := by
  obtain ⟨hinited, hhash, hres⟩ := h
  rw [exec_finish_of_inited hinited, hhash, hres]; rfl

/-- What an access delivers does not depend on what is still pending. -/
theorem eventDelivers_setPending (e : BusEvent) (s : State) (p : List BusEvent) :
    eventDelivers e (s.setPending p) = eventDelivers e s := by
  simp only [eventDelivers]
  cases commandOf e with
  | none => rfl
  | some i => cases i <;> rfl

end

/-! The statements on the session. -/

/-- Settles O50: INIT loads its seed and empties the residue, and every access that keeps the session
absorbs the bytes it delivers. -/
theorem stepKeepsSessionInvariant : Obligations.StepKeepsSessionInvariant := by
  unfold Obligations.StepKeepsSessionInvariant
  constructor
  · intro s t e later hp hinit h
    rw [step_eq_serve hp] at h
    obtain ⟨rfl, -⟩ | ⟨-, hnone, -⟩ | ⟨w, i, rfl, hcmd, hexec⟩ := serve_cases_by_command h
    · contradiction
    · simp [hnone] at hinit
    · obtain rfl : i = .init := Option.some.inj (hcmd.symm.trans hinit)
      exact sessionHolds_of_init (s := s.setPending later) hexec
  · intro seed B s t hs h
    obtain ⟨hp, rfl⟩ | ⟨e, later, hp, hserve⟩ := step_cases h
    · rw [hp]
      exact hs
    · rw [hp]
      intro he
      have hs' : SessionHolds seed B (s.setPending later) := hs
      rw [← eventDelivers_setPending e s later]
      exact hs'.serve he hserve

/-- Settles O51: the accesses after INIT absorb the stream they deliver, and FINISH writes its reference
hash. -/
theorem finishGivesReferenceHash : Obligations.FinishGivesReferenceHash := by
  unfold Obligations.FinishGivesReferenceHash
  intro es s0 s t hinit hes h
  have hopen : SessionHolds (seedOf s0.seedLo s0.seedHi) [] s := sessionHolds_of_init hinit
  exact (hopen.serveAll hes h).exec_finish

end Sys2Proof.Machine
end

section
/-!
PROOFS. The host's sequences (spec/30_encoding.md R71, R72, spec/44_host_sequences.md R123, R124): which
bytes each of them delivers and what it leaves as it was, and the statements on them (O54, O55).
-/

namespace Sys2Proof.Machine

/-! A command the host writes (spec/30_encoding.md R71). -/

section
variable {i : Instr} (hwf : i.WellFormed)
include hwf

theorem serve_hostCmd (s : State) : serve (hostCmd i) s = exec i s :=
  serve_write_cmd_of_command (decode_encode hwf) s

theorem commandOf_hostCmd : commandOf (hostCmd i) = some i := by
  change (if (0#4 : RegIndex) = 0#4 then decodedCommand (decode (encode i)) else none) = some i
  rw [if_pos rfl, decode_encode hwf]; rfl

theorem eventDelivers_hostCmd (s : State) : eventDelivers (hostCmd i) s = bytesDelivered i s := by
  rw [eventDelivers, commandOf_hostCmd hwf]

theorem keepsSession_hostCmd (hi : i ≠ .init) : keepsSession (hostCmd i) = true :=
  decide_eq_true fun h : commandOf (hostCmd i) = some .init =>
    hi (Option.some.inj ((commandOf_hostCmd hwf).symm.trans h))

end

/-! Bytes in DATA (spec/20_memory.md R47, R48). -/

/-- The lanes of the Word at most four bytes form are those bytes. -/
theorem dataBytes_wordOfBytes {b : List Byte} (hb : b.length ≤ 4) :
    dataBytes (wordOfBytes b) b.length = b := by
  refine List.ext_getElem (dataBytes_length _ _) fun j _ hj => ?_
  simp only [dataBytes, List.getElem_map, List.getElem_range]
  rw [byteLane_wordOfBytes b (by omega), List.getD_eq_getElem b 0 hj]

/-! Host programs within a session. -/

/-- The fields that neither the host's DATA writes nor the commands that absorb bytes change. -/
structure SameOutside (s t : State) : Prop where
  inited : t.inited = s.inited
  err : t.err = s.err
  errcode : t.errcode = s.errcode
  result : t.result = s.result
  pending : t.pending = s.pending
  reads : t.reads = s.reads

theorem SameOutside.trans {s t u : State} (hst : SameOutside s t) (htu : SameOutside t u) :
    SameOutside s u where
  inited := htu.inited.trans hst.inited
  err := htu.err.trans hst.err
  errcode := htu.errcode.trans hst.errcode
  result := htu.result.trans hst.result
  pending := htu.pending.trans hst.pending
  reads := htu.reads.trans hst.reads

theorem appendBytes_sameOutside (s : State) (b : List Byte) : SameOutside s (appendBytes s b) := by
  rw [appendBytes_frame]; exact ⟨rfl, rfl, rfl, rfl, rfl, rfl⟩

/-- Served from `s`, the accesses `es` keep the session, deliver the bytes `P` without an error or an
answer, and leave `t`. -/
structure Delivers (es : List BusEvent) (s : State) (P : List Byte) (t : State) : Prop where
  served : serveAll es s = some t
  stream : streamDelivered es s = P
  keeps : ∀ e ∈ es, keepsSession e = true
  outside : SameOutside s t

section
variable {es es' : List BusEvent} {s t u : State} {P P' : List Byte}

theorem Delivers.nil (s : State) : Delivers [] s [] s :=
  ⟨rfl, rfl, by simp, rfl, rfl, rfl, rfl, rfl, rfl⟩

/-- Two programs in turn deliver their bytes in turn. -/
theorem Delivers.append (hst : Delivers es s P t) (htu : Delivers es' t P' u) :
    Delivers (es ++ es') s (P ++ P') u where
  served := by rw [serveAll_append, hst.served, Option.bind_some, htu.served]
  stream := by rw [streamDelivered_append hst.served, hst.stream, htu.stream]
  keeps := List.forall_mem_append.mpr ⟨hst.keeps, htu.keeps⟩
  outside := hst.outside.trans htu.outside

/-- What a program delivers in a session, the session absorbs. -/
theorem Delivers.absorbed (h : Delivers es s P t) (hinited : s.inited = true) (hroom : ResidueNotFull s) :
    Absorbed s P t :=
  h.stream ▸ serveAll_absorbed hinited hroom h.keeps h.served

/-- A write of DATA alone delivers nothing. -/
theorem hostWr_data_delivers (v : Word) (s : State) : Delivers [hostWr .data v] s [] (s.setData v) where
  served := rfl
  stream := rfl
  keeps := List.forall_mem_singleton.mpr rfl
  outside := ⟨rfl, rfl, rfl, rfl, rfl, rfl⟩

/-- One command that is no INIT delivers its bytes, where it runs and changes nothing outside the
session's stream. -/
theorem hostCmd_delivers {i : Instr} (hwf : i.WellFormed) (hi : i ≠ .init) (h : exec i s = .next t)
    (houtside : SameOutside s t) : Delivers [hostCmd i] s (bytesDelivered i s) t where
  served := serveAll_cons ((serve_hostCmd hwf s).trans h) []
  stream := by
    rw [streamDelivered_cons ((serve_hostCmd hwf s).trans h), eventDelivers_hostCmd hwf,
      streamDelivered_nil, List.append_nil]
  keeps := List.forall_mem_singleton.mpr (keepsSession_hostCmd hwf hi)
  outside := houtside

/-- `mixw` of a Word delivers its four bytes where no residue byte is pending, and leaves none pending
(spec/30_encoding.md R72). -/
theorem hostMixw_delivers (hinited : s.inited = true) (hres : s.res = []) (v : Word) :
    ∃ t, Delivers (hostMixw v) s (dataBytes v 4) t ∧ t.res = [] := by
  have hmix : Delivers [hostCmd .mix] (s.setData v) (bytesDelivered .mix (s.setData v))
      ((s.setData v).setHash (mix s.hash v)) :=
    hostCmd_delivers rfl nofun (exec_mix_of_inited (s := s.setData v) hinited hres)
      ⟨rfl, rfl, rfl, rfl, rfl, rfl⟩
  have hbytes : bytesDelivered .mix (s.setData v) = dataBytes v 4 := if_pos ⟨hinited, hres⟩
  rw [hbytes] at hmix
  exact ⟨_, (hostWr_data_delivers v s).append hmix, hres⟩

/-- `pushb` of at most four bytes delivers them (spec/30_encoding.md R72). -/
theorem hostPushb_delivers (hinited : s.inited = true) {b : List Byte} (hb : b.length ≤ 4) :
    Delivers (hostPushb b) s b (appendBytes (s.setData (wordOfBytes b)) b) := by
  have hcount : (BitVec.ofNat 3 b.length).toNat = b.length := by
    rw [BitVec.toNat_ofNat]
    exact Nat.mod_eq_of_lt (by omega)
  have hk : (BitVec.ofNat 3 b.length).toNat ≤ 4 := by rwa [hcount]
  have hdata : dataBytes (s.setData (wordOfBytes b)).data (BitVec.ofNat 3 b.length).toNat = b := by
    rw [hcount]
    exact dataBytes_wordOfBytes hb
  have hpush := hostCmd_delivers (push_wellFormed hk) nofun
    (exec_push_of_inited (s := s.setData (wordOfBytes b)) hinited hk) (appendBytes_sameOutside _ _)
  rw [bytesDelivered, if_pos ⟨hinited, hk⟩, hdata] at hpush
  exact (hostWr_data_delivers _ s).append hpush

/-- `pushs P` delivers exactly `P` (spec/44_host_sequences.md R124). -/
theorem hostPushs_delivers (P : List Byte) (hinited : s.inited = true) :
    ∃ t, Delivers (hostPushs P) s P t := by
  induction P using hostPushs.induct generalizing s with
  | case1 b0 b1 b2 b3 rest ih =>
    have hfirst := hostPushb_delivers (b := [b0, b1, b2, b3]) hinited (by simp)
    obtain ⟨t, hrest⟩ := ih (hfirst.outside.inited.trans hinited)
    exact ⟨t, hfirst.append hrest⟩
  | case2 => exact ⟨s, Delivers.nil s⟩
  | case3 | case4 | case5 => exact ⟨_, hostPushb_delivers hinited (by simp)⟩

/-- The loop of the one-shot sequence delivers the whole Words of the stream, where no residue byte is
pending (spec/44_host_sequences.md R123). -/
theorem hostMixWords_delivers (B : List Byte) (hinited : s.inited = true) (hres : s.res = []) :
    ∃ t, Delivers (hostMixWords B) s (B.take (4 * (B.length / 4))) t := by
  induction B using hostMixWords.induct generalizing s with
  | case1 b0 b1 b2 b3 rest ih =>
    obtain ⟨u, hfirst, hu⟩ := hostMixw_delivers hinited hres (wordOfBytes [b0, b1, b2, b3])
    obtain ⟨t, hrest⟩ := ih (hfirst.outside.inited.trans hinited) hu
    have hlen : 4 * ((b0 :: b1 :: b2 :: b3 :: rest).length / 4) = 4 * (rest.length / 4) + 4 := by
      simp only [List.length_cons]; omega
    have hbytes : dataBytes (wordOfBytes [b0, b1, b2, b3]) 4 = [b0, b1, b2, b3] :=
      dataBytes_wordOfBytes (by simp)
    rw [hbytes] at hfirst
    rw [hlen]
    exact ⟨t, hfirst.append hrest⟩
  | case2 | case3 | case4 | case5 => exact ⟨s, by simpa [hostMixWords] using Delivers.nil s⟩

end

/-! A whole session of the host (spec/44_host_sequences.md R123). -/

/-- The state the two seed writes of `seed S` leave. -/
def seedWritten (S : Seed) (s : State) : State :=
  (s.setSeedLo (S.extractLsb' 0 32)).setSeedHi (S.extractLsb' 32 32)

/-- The state `seed S` leaves. -/
def seeded (S : Seed) (s : State) : State :=
  (((seedWritten S s).setHash ⟨S.extractLsb' 0 32, S.extractLsb' 32 32⟩).setRes []).setInited true

/-- The state `finish` leaves in a session whose hash is `v`. -/
def finished (v : Word) (s : State) : State := (s.setResult v).answerRead v

theorem exec_init_seedWritten (S : Seed) (s : State) : exec .init (seedWritten S s) = .next (seeded S s) :=
  exec_init (seedWritten S s)

theorem serveAll_hostSeed (S : Seed) (s : State) : serveAll (hostSeed S) s = some (seeded S s) := by
  have hinit : serve (hostCmd .init) (seedWritten S s) = .next (seeded S s) :=
    (serve_hostCmd rfl _).trans (exec_init_seedWritten S s)
  calc serveAll (hostSeed S) s
      = serveAll [hostWr .seedHi (S.extractLsb' 32 32), hostCmd .init] (s.setSeedLo (S.extractLsb' 0 32)) :=
        serveAll_cons (serve_write_seedLo _ s) _
    _ = serveAll [hostCmd .init] (seedWritten S s) := serveAll_cons (serve_write_seedHi _ _) _
    _ = some (seeded S s) := serveAll_cons hinit []

/-- The halves `seed S` writes form the seed again (spec/20_memory.md R50). -/
theorem seedOf_seedWritten (S : Seed) (s : State) :
    seedOf (seedWritten S s).seedLo (seedWritten S s).seedHi = S := by
  change seedOf (S.extractLsb' 0 32) (S.extractLsb' 32 32) = S
  rw [seedOf_eq_append, BitVec.extractLsb'_append_extractLsb'_eq_extractLsb' (by decide)]
  exact BitVec.extractLsb'_eq_self

/-- `seed S` opens the session of `S`. -/
theorem seeded_sessionHolds (S : Seed) (s : State) : SessionHolds S [] (seeded S s) := by
  have hopen := sessionHolds_of_init (exec_init_seedWritten S s)
  rwa [seedOf_seedWritten] at hopen

/-- `finish` in a session answers the reference hash of its stream. -/
theorem serveAll_hostFinish {S : Seed} {B : List Byte} {s : State} (h : SessionHolds S B s) :
    serveAll hostFinish s = some (finished (marvin32 B S) s) := by
  rw [hostFinish, serveAll_cons ((serve_hostCmd rfl s).trans h.exec_finish)]; rfl

/-- `t` is what a hashing of `B` under `S` from `s` leaves: the answer, `result`, the session, and no
error or access more than in `s`. -/
abbrev HashAnswered (B : List Byte) (S : Seed) (s t : State) : Prop :=
  t.reads = s.reads ++ [marvin32 B S] ∧ t.result = marvin32 B S ∧
    SessionHolds S B t ∧ t.err = s.err ∧ t.errcode = s.errcode ∧ t.pending = s.pending

section
variable {es : List BusEvent} {B : List Byte} {S : Seed} {s t : State}

/-- `seed S`, then any program that delivers `B`, then `finish`. -/
theorem serveAll_session (h : Delivers es (seeded S s) B t) :
    serveAll (hostSeed S ++ es ++ hostFinish) s = some (finished (marvin32 B S) t) ∧
      HashAnswered B S s (finished (marvin32 B S) t) := by
  have hopen := seeded_sessionHolds S s
  have hsession : SessionHolds S B t := hopen.absorb (h.absorbed hopen.1 hopen.residueNotFull)
  constructor
  · rw [serveAll_append, serveAll_append, serveAll_hostSeed, Option.bind_some, h.served, Option.bind_some,
      serveAll_hostFinish hsession]
  · exact ⟨congrArg (· ++ [marvin32 B S]) h.outside.reads, rfl, hsession, h.outside.err, h.outside.errcode,
      h.outside.pending⟩

end

/-! The statements on the host's sequences. -/

/-- Settles O54: the loop delivers the whole Words, the PUSH the remainder; with the PUSH line left out
and an empty remainder the loop delivers the whole stream, and the DATA write leaves 0. -/
theorem oneShotReadsReferenceHash : Obligations.OneShotReadsReferenceHash := by
  unfold Obligations.OneShotReadsReferenceHash
  constructor
  · intro B S s
    obtain ⟨t, hwords⟩ := hostMixWords_delivers B (s := seeded S s) rfl rfl
    have hrest := hostPushb_delivers (b := streamRemainder B) (hwords.outside.inited.trans rfl)
      (by rw [streamRemainder_length]; omega)
    have hall := hwords.append hrest
    rw [streamRemainder, List.take_append_drop] at hall
    obtain ⟨hserved, hanswered⟩ := serveAll_session hall
    exact ⟨_, by rwa [hostOneShot, List.append_assoc (hostSeed S)], hanswered⟩
  · intro B S s hB
    obtain ⟨t, hwords⟩ := hostMixWords_delivers B (s := seeded S s) rfl rfl
    rw [List.take_of_length_le (by omega)] at hwords
    have hrest : streamRemainder B = [] := by
      rw [← List.length_eq_zero_iff, streamRemainder_length, hB]
    have hall := hwords.append (hostWr_data_delivers (wordOfBytes (streamRemainder B)) t)
    rw [List.append_nil] at hall
    obtain ⟨hserved, hanswered⟩ := serveAll_session hall
    refine ⟨_, by rwa [hostOneShotKeepData, List.append_assoc (hostSeed S)], ?_, hanswered⟩
    rw [hrest]; rfl

/-- Settles O55: `pushs P` delivers `P`, and any accesses that keep the session absorb what they
deliver. -/
theorem pushsDeliversItsBytes : Obligations.PushsDeliversItsBytes := by
  unfold Obligations.PushsDeliversItsBytes
  intro P s hinited hroom
  constructor
  · obtain ⟨t, h⟩ := hostPushs_delivers P hinited
    have habsorbed := h.absorbed hinited hroom
    exact ⟨h.stream, h.keeps, t, h.served, habsorbed.stream, habsorbed.inited, h.outside.err,
      h.outside.errcode, h.outside.result⟩
  · intro es t hes hP h
    exact hP ▸ (serveAll_absorbed hinited hroom hes h).stream

end Sys2Proof.Machine
end

section
/-!
PROOFS. Failing commands and the recorded error (spec/60_exceptions.md R142 to R144, R148): the serving of a
word that fails, the fields no command writes, and the statements on them (O20, O24).
-/

namespace Sys2Proof.Machine

/-- A word that fails in a state, by its decoding or as a command, only records its first cause
(spec/60_exceptions.md R142, R144). -/
theorem serve_write_cmd_of_failure {w : Word} {s : State} {c : BitVec 4}
    (hf : commandFailure w s = some c) : serve (.write 0#4 w) s = .next (errorRecorded c s) := by
  cases hd : decode w with
  | command i =>
    obtain ⟨hwf, rfl⟩ := encode_of_decode hd
    rw [commandFailure_encode hwf] at hf
    rw [serve_write_cmd_of_command hd, exec_of_stateFailure hwf hf]
  | error code =>
    rw [commandFailure_of_error hd] at hf
    obtain rfl : errorNumber code = c := Option.some.inj hf
    exact serve_write_cmd_of_error hd s

/-- Settles O20: taking the access changes no field a cause is read off, and the serving of a failing word
only records the cause. -/
theorem failedCommandRecordsFirstCause : Obligations.FailedCommandRecordsFirstCause := by
  unfold Obligations.FailedCommandRecordsFirstCause
  intro s w later c hp hf
  have htaken : commandFailure w (s.setPending later) = some c := hf
  rw [step_eq_serve hp, serve_write_cmd_of_failure htaken]; rfl

/-- No command writes what the bus still holds or has answered (spec/20_memory.md section 4). -/
theorem exec_pending_reads {i : Instr} {s t : State} (h : exec i s = .next t) :
    t.pending = s.pending ∧ t.reads = s.reads := by
  cases i with
  | nop | init | clrerr => cases h; exact ⟨rfl, rfl⟩
  | mix => obtain ⟨-, rfl⟩ | ⟨-, -, rfl⟩ | ⟨-, -, rfl⟩ := execMix_cases h <;> simp
  | push k =>
    obtain ⟨-, rfl⟩ | ⟨-, -, rfl⟩ | ⟨-, -, rfl⟩ := execPush_cases h
    · simp
    · simp
    · rw [appendBytes_frame]; simp
  | finish => obtain ⟨-, rfl⟩ | ⟨-, rfl⟩ := execFinish_cases h <;> simp

/-- Settles O24: the error state is none of the fields the stream or `result` depends on, and a command
leaves the bus's fields as they are. -/
theorem recordedErrorBlocksNothing : Obligations.RecordedErrorBlocksNothing := by
  unfold Obligations.RecordedErrorBlocksNothing
  intro i s t u e c ht hu
  have hsame : SameStream s (s.setError e c) := ⟨rfl, rfl, rfl, rfl, rfl, rfl⟩
  obtain ⟨u', hu', htu⟩ := exec_sameStream hsame ht
  obtain rfl : u' = u := Host.Outcome.next.inj (hu'.symm.trans hu)
  have hresult : u'.result = t.result := by
    rw [exec_result hu', exec_result ht]; rfl
  obtain ⟨hpending, hreads⟩ := exec_pending_reads ht
  obtain ⟨hpending', hreads'⟩ := exec_pending_reads hu'
  exact State.eq_of_fields (congrArg HashState.lo htu.hash).symm (congrArg HashState.hi htu.hash).symm
    htu.res.symm htu.inited.symm rfl rfl hresult htu.data.symm htu.seedLo.symm htu.seedHi.symm
    (hpending'.trans hpending.symm) (hreads'.trans hreads.symm)

end Sys2Proof.Machine
end

section
/-!
PROOFS. The state after reset and the engine before its first INIT (spec/70_reset_and_hazards.md R161, R162):
what the registers read after reset, the accesses that leave INITED at 0, and the statements on them (O17, O19).
-/

namespace Sys2Proof.Machine

/-! The registers after reset (spec/70_reset_and_hazards.md R161). -/

/-- An empty residue packs to 0 (spec/10_state.md R33). -/
theorem residueWord_of_empty {s : State} (hres : s.res = []) : residueWord s = 0#32 := by
  rw [residueWord, hres]; rfl

/-- STATUS reads 0 when the residue is empty, no INIT has run and no error is recorded
(spec/10_state.md R34). -/
theorem statusWord_eq_zero {s : State} (hres : s.res = []) (hinited : s.inited = false)
    (herr : s.err = false) (herrcode : s.errcode = 0#4) : statusWord s = 0#32 := by
  rw [statusWord, fill, hres, hinited, herr, herrcode]; rfl

/-- Every register reads 0 after reset: the stored fields are 0, and so are the two packed words. -/
theorem readRegister_reset (idx : RegIndex) : readRegister idx State.reset = 0#32 := by
  rw [readRegister]
  cases regAt idx with
  | none => rfl
  | some r =>
    cases r with
    | residue => exact residueWord_of_empty rfl
    | status => exact statusWord_eq_zero rfl rfl rfl rfl
    | cmd | data | seedLo | seedHi | stateLo | stateHi | result | resultHi => rfl

/-- Settles O17: the fields are the definition of `State.reset`, and the registers are read from them. -/
theorem resetValuesOfAllState : Obligations.ResetValuesOfAllState := by
  unfold Obligations.ResetValuesOfAllState
  exact ⟨rfl, rfl, rfl, rfl, rfl, rfl, rfl, rfl, rfl, rfl, readRegister_reset⟩

/-! The engine before its first INIT (spec/70_reset_and_hazards.md R162, spec/10_state.md R25). -/

/-- An access that does not run INIT leaves INITED at 0: reset clears it, and INIT alone sets it. -/
theorem serve_uninited {e : BusEvent} {s t : State} (hinited : s.inited = false)
    (he : commandOf e ≠ some .init) (h : serve e s = .next t) : t.inited = false := by
  obtain ⟨-, rfl⟩ | ⟨-, -, hsame⟩ | ⟨w, i, -, hcmd, hexec⟩ := serve_cases_by_command h
  · exact platformReset_inited s
  · rw [hsame.inited, hinited]
  · have hi : i ≠ .init := by
      rintro rfl
      exact he hcmd
    rw [exec_inited hexec, if_neg hi, hinited]

/-- Accesses that do not run INIT, any number of them, leave INITED at 0. -/
theorem serveAll_uninited {es : List BusEvent} {s t : State} (hinited : s.inited = false)
    (hes : ∀ e ∈ es, commandOf e ≠ some .init) (h : serveAll es s = some t) : t.inited = false := by
  induction es generalizing s with
  | nil => cases h; exact hinited
  | cons e es ih =>
    rw [List.forall_mem_cons] at hes
    obtain ⟨s₁, hs₁, ht⟩ := serveAll_cons_some h
    exact ih (serve_uninited hinited hes.1 hs₁) hes.2 ht

/-- INIT with a zero seed starts from the hash state and the residue of reset
(spec/70_reset_and_hazards.md R162). -/
theorem exec_init_of_seed_zero {s : State} (hlo : s.seedLo = 0#32) (hhi : s.seedHi = 0#32) :
    exec .init s =
      .next (((s.setHash State.reset.hash).setRes State.reset.res).setInited true) := by
  have hseed : (⟨s.seedLo, s.seedHi⟩ : HashState) = State.reset.hash := by rw [hlo, hhi]; rfl
  rw [exec_init, hseed]; rfl

/-- Settles O19: INITED is still 0, which is the cause MIX, PUSH and FINISH record; INIT loads the zero
seed. -/
theorem hashingBeforeInitIsRefused : Obligations.HashingBeforeInitIsRefused := by
  unfold Obligations.HashingBeforeInitIsRefused
  constructor
  · intro es t hes ht
    have hinited : t.inited = false := serveAll_uninited rfl hes ht
    exact ⟨exec_mix_before_init hinited, fun k hk => exec_push_before_init hk hinited,
      exec_finish_before_init hinited⟩
  · intro s hlo hhi
    exact exec_init_of_seed_zero hlo hhi

end Sys2Proof.Machine
end

section
/-!
PROOFS. The encoder against the decoder (spec/30_encoding.md sections 1 to 3), and PUSH with a count no word
encodes: the statements on them (O1, O4, O23).
-/

namespace Sys2Proof

/-- Settles O1: a legal command's word decodes to it, and a decoded command is legal and its word is the one
decoded. -/
theorem decodeIsInverseOfEncode : Obligations.DecodeIsInverseOfEncode := by
  unfold Obligations.DecodeIsInverseOfEncode
  constructor
  · intro i hwf
    exact decode_encode hwf
  · intro w i hd
    obtain ⟨hwf, hw⟩ := encode_of_decode hd
    exact ⟨hwf, hw.symm⟩

/-- A legal command's word, written out, decodes to the command (spec/30_encoding.md R62). -/
theorem decode_of_encode_eq {w : Word} {i : Instr} (hwf : i.WellFormed) (hw : encode i = w) :
    decode w = .command i :=
  (decode_eq_command_iff_word hwf hw).mpr rfl

/-- Settles O4: each word written out is the word of its command. -/
theorem writtenOutWordsDecode : Obligations.WrittenOutWordsDecode := by
  unfold Obligations.WrittenOutWordsDecode
  exact ⟨decode_of_encode_eq rfl (by decide), decode_of_encode_eq rfl (by decide),
    decode_of_encode_eq rfl (by decide), decode_of_encode_eq rfl (by decide),
    decode_of_encode_eq rfl (by decide), decode_of_encode_eq rfl (by decide)⟩

/-- Settles O23: a decoded PUSH has at most four bytes, and PUSH checks its count before the state. -/
theorem unencodablePushRecordsCount : Obligations.UnencodablePushRecordsCount := by
  unfold Obligations.UnencodablePushRecordsCount
  intro s k hk
  constructor
  · intro w hd
    obtain ⟨hcount, -⟩ := decode_eq_push_iff.mp hd
    omega
  · exact Machine.exec_push_of_gt hk s

end Sys2Proof
end

section
/-!
PROOFS. The engine's invariant (spec/10_state.md R21 to R25, R34, spec/60_exceptions.md R141, R144): reset has
it, every command and every access keeps it, and the statements on it (O48, O49).
-/

namespace Sys2Proof.Machine

/-- Settles O49: each part of the invariant, on the values of reset. -/
theorem resetHasEngineInvariant : Obligations.ResetHasEngineInvariant := by
  unfold Obligations.ResetHasEngineInvariant
  exact ⟨by decide, by decide, fun _ => by decide⟩

/-- No error has the code of "no error recorded" (spec/60_exceptions.md R141). -/
theorem errorNumber_ne_zero (c : ErrorCode) : errorNumber c ≠ 0#4 := by
  cases c <;> decide

/-- Code 4 is that of E_RESIDUE alone (spec/60_exceptions.md R141). -/
theorem errorNumber_eq_four {c : ErrorCode} (h : errorNumber c = 4#4) : c = .eResidue := by
  cases c with
  | eResidue => rfl
  | eIllegal | eCount | eNoInit => contradiction

section
variable {s t : State}

/-- A recorded error is one of the four codes, and E_NOINIT rather than E_RESIDUE before INIT
(spec/60_exceptions.md R144). -/
theorem State.Inv.raiseError {c : ErrorCode} (hinv : s.Inv) (hc : s.inited = false → c ≠ .eResidue) :
    (raiseError c s).Inv := by
  obtain ⟨hroom, ⟨hclear, hle⟩, hbefore⟩ := hinv
  by_cases herr : s.err = true
  · have hkept : Machine.raiseError c s = s := if_pos herr
    rw [hkept]
    exact ⟨hroom, ⟨hclear, hle⟩, hbefore⟩
  · have hset : Machine.raiseError c s = s.setError true (errorNumber c) := if_neg herr
    rw [hset]
    refine ⟨hroom, ⟨?_, (errorNumber_range c).2⟩, ?_⟩
    · exact iff_of_false nofun (errorNumber_ne_zero c)
    · intro hinited
      obtain ⟨hlo, hhi, hres, hresult, -⟩ := hbefore hinited
      exact ⟨hlo, hhi, hres, hresult, mt errorNumber_eq_four (hc hinited)⟩

/-- In a session only the room in the residue and the error code are left to the invariant. -/
theorem inv_of_inited (hinited : s.inited = true) (hroom : ResidueNotFull s) (hcode : ErrorCodeLegal s) :
    s.Inv :=
  ⟨hroom, hcode, fun hnot => absurd (hinited.symm.trans hnot) nofun⟩

/-- Every command keeps the invariant. -/
theorem State.Inv.exec {i : Instr} (hinv : s.Inv) (h : exec i s = .next t) : t.Inv := by
  have ⟨hroom, hcode, hbefore⟩ := hinv
  cases i with
  | nop => cases h; exact hinv
  | init => cases h; exact inv_of_inited rfl (Nat.zero_lt_succ 3) hcode
  | clrerr =>
    cases h
    refine ⟨hroom, ⟨iff_of_true rfl rfl, Nat.zero_le 4⟩, fun hinited => ?_⟩
    obtain ⟨hlo, hhi, hres, hresult, -⟩ := hbefore hinited
    exact ⟨hlo, hhi, hres, hresult, nofun⟩
  | mix =>
    obtain ⟨-, rfl⟩ | ⟨hinited, -, rfl⟩ | ⟨hinited, -, rfl⟩ := execMix_cases h
    · exact hinv.raiseError fun _ => nofun
    · exact hinv.raiseError fun hnot => absurd (hinited.symm.trans hnot) nofun
    · exact inv_of_inited hinited hroom hcode
  | push k =>
    obtain ⟨-, rfl⟩ | ⟨-, -, rfl⟩ | ⟨hk, hinited, rfl⟩ := execPush_cases h
    · exact hinv.raiseError fun _ => nofun
    · exact hinv.raiseError fun _ => nofun
    · have habsorbed := appendBytes_absorbed (b := dataBytes s.data k.toNat) hinited hroom
        (by rwa [dataBytes_length])
      have hsame := appendBytes_sameOutside s (dataBytes s.data k.toNat)
      refine inv_of_inited habsorbed.inited (habsorbed.residueNotFull hroom) ?_
      rw [ErrorCodeLegal, hsame.err, hsame.errcode]
      exact hcode
  | finish =>
    obtain ⟨-, rfl⟩ | ⟨hinited, rfl⟩ := execFinish_cases h
    · exact hinv.raiseError fun _ => nofun
    · exact inv_of_inited hinited hroom hcode

/-- No decoding error is E_RESIDUE (spec/30_encoding.md R65). -/
theorem decode_ne_residue (w : Word) : decode w ≠ .error .eResidue := by
  intro hd
  obtain ⟨he, -⟩ | ⟨he, -⟩ | ⟨i, he, -⟩ := decode_cases w <;> simp [hd] at he

/-- Every access keeps the invariant. -/
theorem State.Inv.serve {e : BusEvent} (hinv : s.Inv) (h : serve e s = .next t) : t.Inv := by
  obtain ⟨rfl, rfl⟩ | ⟨idx, rfl, rfl⟩ | ⟨v, rfl, rfl⟩ | ⟨v, rfl, rfl⟩ | ⟨v, rfl, rfl⟩ |
    ⟨idx, v, rfl, -, rfl⟩ | ⟨w, i, rfl, -, hexec⟩ | ⟨w, c, rfl, hd, rfl⟩ := serve_cases h
  · exact resetHasEngineInvariant
  · exact hinv
  · exact hinv
  · exact hinv
  · exact hinv
  · exact hinv
  · exact hinv.exec hexec
  · refine hinv.raiseError fun _ hc => ?_
    subst hc
    exact decode_ne_residue w hd

end

/-- Settles O48: a step idles or serves one access, which keeps the invariant. -/
theorem stepKeepsEngineInvariant : Obligations.StepKeepsEngineInvariant := by
  unfold Obligations.StepKeepsEngineInvariant
  intro s t hinv h
  obtain ⟨-, rfl⟩ | ⟨e, later, -, hserve⟩ := step_cases h
  · exact hinv
  · have htaken : (s.setPending later).Inv := hinv
    exact htaken.serve hserve

end Sys2Proof.Machine
end

section
/-!
PROOFS. Steps and runs (spec/20_memory.md section 4, spec/70_reset_and_hazards.md section 4): every command and
access completes, what each does to the bus's two fields, a step whatever is still pending, and the statements
on them (O6 to O10, O18).
-/

namespace Sys2Proof.Machine

/-! Completion (spec/70_reset_and_hazards.md R169). -/

/-- Every command completes, whether it succeeds or records an error. -/
theorem exec_completes (i : Instr) (s : State) : ∃ t, exec i s = .next t := by
  cases i with
  | nop | init | clrerr => exact ⟨_, rfl⟩
  | mix =>
    rw [exec, execMix]
    split_ifs
    · exact ⟨_, rfl⟩
    · exact ⟨_, rfl⟩
    · exact ⟨_, rfl⟩
  | push k =>
    rw [exec, execPush]
    split_ifs
    · exact ⟨_, rfl⟩
    · exact ⟨_, rfl⟩
    · exact ⟨_, rfl⟩
  | finish =>
    rw [exec, execFinish]
    split_ifs
    · exact ⟨_, rfl⟩
    · exact ⟨_, rfl⟩

/-- Every access completes: a write to CMD by its command or its error, any other write by settling. -/
theorem serve_completes (e : BusEvent) (s : State) : ∃ t, serve e s = .next t := by
  cases e with
  | reset | read idx => exact ⟨_, rfl⟩
  | write idx v =>
    by_cases hidx : idx = 0#4
    · subst hidx
      cases hd : decode v with
      | command i => rw [serve_write_cmd_of_command hd]; exact exec_completes i s
      | error c => exact ⟨_, serve_write_cmd_of_error hd s⟩
    · obtain ⟨t, ht, -⟩ := serve_write_settles hidx v s
      exact ⟨t, ht⟩

/-- Settles O6: a step with no access pending serves none. -/
theorem stepWithNothingPendingIdles : Obligations.StepWithNothingPendingIdles := by
  unfold Obligations.StepWithNothingPendingIdles
  intro s hp
  simp only [step, serveNext, hp]

/-- Settles O9: a step idles or serves an access, which completes. -/
theorem everyCommandAndStepCompletes : Obligations.EveryCommandAndStepCompletes := by
  unfold Obligations.EveryCommandAndStepCompletes
  refine ⟨exec_completes, fun s => ?_⟩
  cases hp : s.pending with
  | nil => exact ⟨s, stepWithNothingPendingIdles s hp⟩
  | cons e later => rw [step_eq_serve hp]; exact serve_completes e _

/-- Settles O18: the reset event is served by the platform's reset. -/
theorem resetEventRestoresEveryField : Obligations.ResetEventRestoresEveryField := by
  unfold Obligations.ResetEventRestoresEveryField
  intro s later hp
  rw [step_eq_serve hp]; rfl

/-- The register window, index by index (spec/10_state.md section 2). -/
theorem readRegister_eq_getD (idx : RegIndex) (s : State) :
    readRegister idx s =
      [0#32, s.data, s.seedLo, s.seedHi, s.lo, s.hi, residueWord s, statusWord s,
        s.result, 0#32, 0#32, 0#32, 0#32, 0#32, 0#32, 0#32].getD idx.toNat 0#32 := by
  have hlt : idx.toNat < 16 := idx.isLt
  rw [readRegister, regAt]
  generalize idx.toNat = n at hlt
  interval_cases n <;> rfl

/-- Settles O10: the answer is the register's value. -/
theorem readAnswersTheRegister : Obligations.ReadAnswersTheRegister := by
  unfold Obligations.ReadAnswersTheRegister
  intro s idx later hp
  rw [step_read hp, readRegister_eq_getD]

/-! What the bus holds and has answered (spec/20_memory.md R41, R51). -/

/-- The values an event answers: the register's for a read, none for any other. -/
def eventAnswers (e : BusEvent) (s : State) : List Word :=
  match e with
  | .write _ _ => []
  | .read idx => [readRegister idx s]
  | .reset => []

/-- Serving an event takes nothing more from the bus and appends the event's answers. -/
theorem serve_pending_reads {e : BusEvent} {s t : State} (h : serve e s = .next t) :
    t.pending = s.pending ∧ t.reads = s.reads ++ eventAnswers e s := by
  obtain ⟨rfl, rfl⟩ | ⟨idx, rfl, rfl⟩ | ⟨v, rfl, rfl⟩ | ⟨v, rfl, rfl⟩ | ⟨v, rfl, rfl⟩ |
    ⟨idx, v, rfl, -, rfl⟩ | ⟨w, i, rfl, -, hexec⟩ | ⟨w, c, rfl, -, rfl⟩ := serve_cases h
  · simp [eventAnswers]
  · exact ⟨rfl, rfl⟩
  · simp [eventAnswers]
  · simp [eventAnswers]
  · simp [eventAnswers]
  · simp [eventAnswers]
  · simpa [eventAnswers] using exec_pending_reads hexec
  · simp [eventAnswers]

/-- Settles O7: a step takes the access it serves and appends its answers. -/
theorem stepServesAccessesInOrder : Obligations.StepServesAccessesInOrder := by
  unfold Obligations.StepServesAccessesInOrder
  intro s t h
  obtain ⟨hp, rfl⟩ | ⟨e, later, hp, hserve⟩ := step_cases h
  · simp [hp]
  obtain ⟨hpending, hreads⟩ := serve_pending_reads hserve
  rw [State.setPending_reads] at hreads
  refine ⟨by rw [hpending, hp]; rfl, ?_, ?_⟩
  · intro hnoRead
    cases e with
    | read idx => exact absurd hp (hnoRead idx later)
    | write idx v | reset => simpa [eventAnswers] using hreads
  · intro idx later' hread
    obtain ⟨rfl, rfl⟩ : e = .read idx ∧ later = later' := List.cons.inj (hp.symm.trans hread)
    exact ⟨_, hreads⟩

/-! Serving an event neither reads nor writes what is still pending. -/

section
variable {s t : State} (p : List BusEvent)

theorem raiseError_setPending (c : ErrorCode) (s : State) :
    raiseError c (s.setPending p) = (raiseError c s).setPending p := by
  rw [raiseError_eq, raiseError_eq]; rfl

theorem appendBytes_setPending (s : State) (b : List Byte) :
    appendBytes (s.setPending p) b = (appendBytes s b).setPending p := by
  obtain ⟨hhash, hres⟩ := appendBytes_congr (State.setPending_hash s p) (State.setPending_res s p) b
  rw [appendBytes_frame (s.setPending p) b, hhash, hres, appendBytes_frame s b]; rfl

theorem exec_setPending {i : Instr} (h : exec i s = .next t) :
    exec i (s.setPending p) = .next (t.setPending p) := by
  cases i with
  | nop | init | clrerr => cases h; rfl
  | mix =>
    obtain ⟨hinited, rfl⟩ | ⟨hinited, hres, rfl⟩ | ⟨hinited, hres, rfl⟩ := execMix_cases h
    · rw [exec_mix_before_init (s := s.setPending p) hinited, raiseError_eq_errorRecorded]; rfl
    · rw [exec_mix_of_residue (s := s.setPending p) hinited hres, raiseError_eq_errorRecorded]; rfl
    · exact exec_mix_of_inited (s := s.setPending p) hinited hres
  | push k =>
    obtain ⟨hk, rfl⟩ | ⟨hk, hinited, rfl⟩ | ⟨hk, hinited, rfl⟩ := execPush_cases h
    · rw [exec_push_of_gt hk, raiseError_eq_errorRecorded]; rfl
    · rw [exec_push_before_init (s := s.setPending p) hk hinited, raiseError_eq_errorRecorded]; rfl
    · rw [exec_push_of_inited (s := s.setPending p) hinited hk, State.setPending_data,
        appendBytes_setPending]
  | finish =>
    obtain ⟨hinited, rfl⟩ | ⟨hinited, rfl⟩ := execFinish_cases h
    · rw [exec_finish_before_init (s := s.setPending p) hinited, raiseError_eq_errorRecorded]; rfl
    · exact exec_finish_of_inited (s := s.setPending p) hinited

theorem serve_setPending {e : BusEvent} (h : serve e s = .next t) :
    serve e (s.setPending p) = .next (t.setPending p) := by
  obtain ⟨rfl, rfl⟩ | ⟨idx, rfl, rfl⟩ | ⟨v, rfl, rfl⟩ | ⟨v, rfl, rfl⟩ | ⟨v, rfl, rfl⟩ |
    ⟨idx, v, rfl, h4, rfl⟩ | ⟨w, i, rfl, hd, hexec⟩ | ⟨w, c, rfl, hd, rfl⟩ := serve_cases h
  · rfl
  · rfl
  · rfl
  · rfl
  · rfl
  · exact serve_write_ignored h4 v _
  · rw [serve_write_cmd_of_command hd]
    exact exec_setPending p hexec
  · rw [serve_write_cmd_of_error hd, raiseError_eq_errorRecorded]; rfl

end

/-- Each step of a run serves the first of the events pending, whatever stays pending after it. -/
theorem stepTimes_of_serveAll {es later : List BusEvent} {s t : State} (hp : s.pending = es ++ later)
    (h : serveAll es (s.setPending later) = some t) : stepTimes es.length s = some t := by
  induction es generalizing s with
  | nil =>
    obtain rfl : s.pending = later := hp
    exact h
  | cons e es ih =>
    obtain ⟨u, hserve, hrest⟩ := serveAll_cons_some h
    have hstep : step s = .next (u.setPending (es ++ later)) := by
      rw [step_eq_serve hp]
      exact serve_setPending (s := s.setPending later) (es ++ later) hserve
    obtain ⟨hpending, -⟩ := serve_pending_reads hserve
    rw [State.setPending_pending] at hpending
    have hu : (u.setPending (es ++ later)).setPending later = u := by
      subst hpending; rfl
    rw [List.length_cons, stepTimes, hstep]
    exact ih rfl (by rwa [hu])

/-- Settles O8: the events pending are served one a step. -/
theorem runServesPendingInOrder : Obligations.RunServesPendingInOrder := by
  unfold Obligations.RunServesPendingInOrder
  intro es later s t hp h
  exact stepTimes_of_serveAll hp h

end Sys2Proof.Machine
end

section
/-!
PROOFS. The residue and the operand registers (spec/10_state.md section 1): which access changes them, and the
statements on them (O43, O47).
-/

namespace Sys2Proof.Machine

/-- A command other than INIT and PUSH leaves the residue (spec/10_state.md R23). -/
theorem exec_res {i : Instr} {s t : State} (h : exec i s = .next t) (hinit : i ≠ .init)
    (hpush : ∀ k, i ≠ .push k) : t.res = s.res := by
  cases i with
  | nop | clrerr => cases h; rfl
  | init => contradiction
  | mix => obtain ⟨-, rfl⟩ | ⟨-, -, rfl⟩ | ⟨-, -, rfl⟩ := execMix_cases h <;> simp
  | push k => exact absurd rfl (hpush k)
  | finish => obtain ⟨-, rfl⟩ | ⟨-, rfl⟩ := execFinish_cases h <;> simp

/-- Settles O43: INIT empties the residue, and of the other commands PUSH alone writes it. -/
theorem residueChangesOnlyByPushInitReset : Obligations.ResidueChangesOnlyByPushInitReset := by
  unfold Obligations.ResidueChangesOnlyByPushInitReset
  intro s t h
  obtain ⟨hp, rfl⟩ | ⟨later, hp, rfl⟩ | ⟨e, later, hp, hreset, hcmd, hsame⟩ |
    ⟨w, later, i, hp, hcmd, hexec⟩ := step_cases_by_command h
  · simp only [hp]
  · simp only [hp]; rfl
  · rw [hp]
    cases e with
    | reset => contradiction
    | read idx | write idx v => simpa only [hcmd] using hsame.res
  · simp only [hp, hcmd]
    cases i with
    | init => cases hexec; rfl
    | push k => trivial
    | nop | mix | finish | clrerr => exact exec_res (s := s.setPending later) hexec nofun nofun

/-- The operand registers, DATA, SEED_LO and SEED_HI (spec/10_state.md R29, R30). -/
def operands (s : State) : Word × Word × Word := (s.data, s.seedLo, s.seedHi)

/-- Recording an error leaves the operand registers (spec/60_exceptions.md R142). -/
theorem operands_raiseError (c : ErrorCode) (s : State) : operands (raiseError c s) = operands s := by
  simp [operands]

/-- No command writes an operand register (spec/10_state.md R29, R30). -/
theorem exec_operands {i : Instr} {s t : State} (h : exec i s = .next t) : operands t = operands s := by
  cases i with
  | nop | init | clrerr => cases h; rfl
  | mix =>
    obtain ⟨-, rfl⟩ | ⟨-, -, rfl⟩ | ⟨-, -, rfl⟩ := execMix_cases h
    · exact operands_raiseError _ s
    · exact operands_raiseError _ s
    · rfl
  | push k =>
    obtain ⟨-, rfl⟩ | ⟨-, -, rfl⟩ | ⟨-, -, rfl⟩ := execPush_cases h
    · exact operands_raiseError _ s
    · exact operands_raiseError _ s
    · rw [appendBytes_frame]; rfl
  | finish =>
    obtain ⟨-, rfl⟩ | ⟨-, rfl⟩ := execFinish_cases h
    · exact operands_raiseError _ s
    · rfl

/-- Settles O47: a write stores in the register at its index, and a command writes none of them. -/
theorem operandRegistersChangeOnlyByHostWrite : Obligations.OperandRegistersChangeOnlyByHostWrite := by
  unfold Obligations.OperandRegistersChangeOnlyByHostWrite
  intro s t h
  obtain ⟨hp, rfl⟩ | ⟨e, later, hp, hs⟩ := step_cases h
  · simp only [hp]
  rw [hp]
  obtain ⟨rfl, rfl⟩ | ⟨idx, rfl, rfl⟩ | ⟨v, rfl, rfl⟩ | ⟨v, rfl, rfl⟩ | ⟨v, rfl, rfl⟩ |
    ⟨idx, v, rfl, h4, rfl⟩ | ⟨w, i, rfl, hd, hexec⟩ | ⟨w, c, rfl, hd, rfl⟩ := serve_cases hs
  · rfl
  · rfl
  · rfl
  · rfl
  · rfl
  · have hidx (j : RegIndex) (hj : j.toNat < 4) : idx ≠ j := by rintro rfl; omega
    simp [hidx 1#4 (by decide), hidx 2#4 (by decide), hidx 3#4 (by decide)]
  · exact exec_operands (s := s.setPending later) hexec
  · exact operands_raiseError c (s.setPending later)

end Sys2Proof.Machine
end

section
/-!
PROOFS. Words as numbers (spec/20_memory.md section 3), a stream cut by position, and the hash it gives however
the host delivers it (spec/44_host_sequences.md sections 1 and 3): the statements on them (O40, O52, O53, O56).
-/

namespace Sys2Proof.Machine

/-! Little-endian Words (spec/20_memory.md R47, R48). -/

/-- A Word is its bytes side by side, the first one lowest. -/
theorem le32_eq_append (b0 b1 b2 b3 : Byte) : le32 b0 b1 b2 b3 = b3 ++ (b2 ++ (b1 ++ b0)) := by
  ext j hj
  rw [← BitVec.getLsbD_eq_getElem, ← BitVec.getLsbD_eq_getElem, getLsbD_le32]
  simp only [BitVec.getLsbD_append]
  split_ifs <;> first | rfl | omega

/-- Bits side by side count by place value. -/
theorem toNat_append_byte {n : Nat} (x : Byte) (y : BitVec n) : (x ++ y).toNat = y.toNat + 2 ^ n * x.toNat := by
  rw [BitVec.toNat_append, ← Nat.shiftLeft_add_eq_or_of_lt y.isLt, Nat.shiftLeft_eq]
  ring

/-- Settles O40: place values of the bytes, and the lanes of a Word. -/
theorem wordsAreLittleEndian : Obligations.WordsAreLittleEndian := by
  unfold Obligations.WordsAreLittleEndian
  refine ⟨?_, ?_, ?_⟩
  · intro b0 b1 b2 b3
    rw [le32_eq_append, toNat_append_byte, toNat_append_byte, toNat_append_byte]
  · intro v
    exact (wordOfBytes_dataBytes v).symm
  · intro v k i hik _
    refine ⟨dataBytes_length v k, ?_⟩
    rw [dataBytes, List.getElem?_map, List.getElem?_range hik]; rfl

/-! The stream, cut by position (spec/44_host_sequences.md R121). -/

/-- A whole number of Words at the front is hashed first, and is no part of the remainder. -/
theorem stream_wholeWords_append (h : HashState) {A : List Byte} {m : Nat} (hA : A.length = 4 * m)
    (B : List Byte) :
    hashWords h (A ++ B) = hashWords (hashWords h A) B ∧
      streamRemainder (A ++ B) = streamRemainder B := by
  induction m generalizing h A with
  | zero =>
    obtain rfl : A = [] := List.length_eq_zero_iff.mp hA
    exact ⟨rfl, rfl⟩
  | succ m ih =>
    obtain ⟨w, C, rfl, hw⟩ : ∃ w C, A = w ++ C ∧ w.length = 4 :=
      ⟨A.take 4, A.drop 4, (List.take_append_drop 4 A).symm, by rw [List.length_take]; omega⟩
    have hC : C.length = 4 * m := by rw [List.length_append] at hA; omega
    rw [List.append_assoc, hashWords_word_append h hw, hashWords_word_append h hw,
      streamRemainder_word_append hw]
    exact ih _ hC

/-- Settles O53: the Words of `A` are cut off both streams alike. -/
theorem streamIsCutByPosition : Obligations.StreamIsCutByPosition := by
  unfold Obligations.StreamIsCutByPosition
  rintro h A B ⟨m, hA⟩
  obtain ⟨hhash, hrest⟩ := stream_wholeWords_append h hA B
  exact ⟨hhash, hrest, streamRemainder_length B⟩

/-- Settles O52: both sequences of accesses end in the session of the same stream. -/
theorem chunkingDoesNotMatter : Obligations.ChunkingDoesNotMatter := by
  unfold Obligations.ChunkingDoesNotMatter
  intro es es' s s' t t' seed hs hs' hes hes' ht ht' hstream
  obtain ⟨-, hhash, hres⟩ := hs.serveAll hes ht
  obtain ⟨-, hhash', hres'⟩ := hs'.serveAll hes' ht'
  rw [← hstream] at hhash' hres'
  have hsame : t.hash = t'.hash := hhash.trans hhash'.symm
  exact ⟨congrArg HashState.lo hsame, congrArg HashState.hi hsame, hres.trans hres'.symm⟩

/-! The one-shot sequence with no remainder (spec/44_host_sequences.md R123). -/

/-- Settles O56: without a remainder the loop delivers the whole stream, and FINISH and the read of RESULT
leave DATA as it is. -/
theorem oneShotWithoutRemainderLinesReadsReferenceHash :
    Obligations.OneShotWithoutRemainderLinesReadsReferenceHash := by
  unfold Obligations.OneShotWithoutRemainderLinesReadsReferenceHash
  intro B S s hB
  obtain ⟨u, hwords⟩ := hostMixWords_delivers B (s := seeded S s) rfl rfl
  rw [List.take_of_length_le (by omega)] at hwords
  have hu : serveAll (hostSeed S ++ hostMixWords B) s = some u := by
    rw [serveAll_append, serveAll_hostSeed, Option.bind_some, hwords.served]
  obtain ⟨hserved, hanswered⟩ := serveAll_session hwords
  exact ⟨u, finished (marvin32 B S) u, hu, hserved, rfl, hanswered⟩

end Sys2Proof.Machine
end
